-- ==== Sys2Proof/Word.lean ====
section
/-! DEFINITION. The word types of JFC. All values are unsigned (00_scope.md R7). -/

namespace Sys2Proof

/-- A buffer byte, a payload byte, a CRC_ADD operand (CNT_W = 8 too): 00_scope.md R5. -/
abbrev Byte := BitVec 8

/-- ID, LEN, CRCREG and CRCVAL (ID_W = LEN_W = CRC_W = 16): 00_scope.md R5. -/
abbrev Half := BitVec 16

/-- FLEN and OFF (FLEN_W = OFF_W = 17): 00_scope.md R5. -/
abbrev Extent := BitVec 17

/-- DATA, FAULTINFO, a command word, the value a BUS_RD returns (32 bits): 00_scope.md R5. -/
abbrev Word := BitVec 32

/-- A host bus byte address (ADDR_W = 20): 00_scope.md R5, 20_memory.md R38. -/
abbrev Addr := BitVec 20

/-- The packed form of a host transaction: 30_encoding.md R73. -/
abbrev Descriptor := BitVec 64

end Sys2Proof
end

