-- ==== Sys2Proof/Syntax.lean ====
section
/-! DEFINITION. The instructions of JFC: one constructor per row of spec/opcode_table.json, seven
commands (the data of a BUS_WR to CMD) and the two host transactions that reach the block. -/

namespace Sys2Proof

/-- The size n of a host transaction, 1 or 4 bytes: 20_memory.md R53. -/
inductive AccessSize where
  | byte
  | word
  deriving DecidableEq, Repr

/-- The instruction set: 30_encoding.md R66 (commands) and R73 (host transactions). -/
inductive Instr where
  /-- CRC_INIT: 40_crc.md R83. -/
  | crcInit
  /-- CRC_ADD b: 40_crc.md R84. -/
  | crcAdd (b : Byte)
  /-- CRC_FINAL: 40_crc.md R85. -/
  | crcFinal
  /-- CUR_READ n; every count 0..7 is encodable (30_encoding.md R68): 41_cursor.md R91. -/
  | curRead (n : BitVec 3)
  /-- CUR_WRITE n; every count 0..7 is encodable (30_encoding.md R68): 41_cursor.md R92. -/
  | curWrite (n : BitVec 3)
  /-- ENCODE: 42_codec.md R97. -/
  | encode
  /-- DECODE: 42_codec.md R98. -/
  | decode
  /-- BUS_RD(addr, n): 20_memory.md R55. -/
  | busRd (size : AccessSize) (addr : Addr)
  /-- BUS_WR(addr, n, w); a byte write's data is w[7:0]: 20_memory.md R56. -/
  | busWr (size : AccessSize) (addr : Addr) (data : Word)
  deriving DecidableEq, Repr

end Sys2Proof
end

