-- ==== Sys2Proof/WellFormed.lean ====
section
/-! DEFINITION. Which instruction terms spell an instruction of the hardware. -/

namespace Sys2Proof

/-- Write data is 8n bits (20_memory.md R53): a byte write's data has W[31:8] = 0
(30_encoding.md R73). -/
def AccessSize.holds : AccessSize → Word → Bool
  | .byte, w => decide (w.toNat < 2 ^ 8)
  | .word, _ => true

/-- Every operand of the other constructors is an encodable operand by its type
(30_encoding.md R67, R68, R73). -/
def Instr.wellFormed : Instr → Bool
  | .crcInit => true
  | .crcAdd _ => true
  | .crcFinal => true
  | .curRead _ => true
  | .curWrite _ => true
  | .encode => true
  | .decode => true
  | .busRd _ _ => true
  | .busWr size _ data => size.holds data

/-- Whether the instruction is one of the seven commands of 30_encoding.md R66. -/
def Instr.isCommand : Instr → Bool
  | .crcInit => true
  | .crcAdd _ => true
  | .crcFinal => true
  | .curRead _ => true
  | .curWrite _ => true
  | .encode => true
  | .decode => true
  | .busRd _ _ => false
  | .busWr _ _ _ => false

end Sys2Proof
end

