-- ==== Sys2Proof/Decode.lean ====
section
/-! DEFINITION. Decoding of the two formats of 30_encoding.md R64, total and rejecting by name, and
after it the encoder written from the same tables. -/

namespace Sys2Proof

/-- One encoded instruction: 30_encoding.md R64 gives exactly these two formats. -/
inductive Encoding where
  /-- A CMD word. -/
  | command (w : Word)
  /-- A BUS descriptor. -/
  | transaction (d : Descriptor)
  deriving DecidableEq, Repr

/-- Why bits are no instruction. -/
inductive DecodeError where
  /-- OP is none of the seven of 30_encoding.md R66: R69. -/
  | reservedOpcode
  /-- A listed OP with a nonzero bit in a must-be-zero ARG field: 30_encoding.md R70. -/
  | nonzeroArg
  /-- A descriptor with a nonzero bit in [61:52]: 30_encoding.md R73. -/
  | reservedDescriptorBits
  /-- A BUS_RD descriptor whose W is not zero: 30_encoding.md R73 (log 6). -/
  | readWithData
  /-- A 1-byte BUS_WR descriptor with W[31:8] not zero: 30_encoding.md R73 (log 6). -/
  | wideByteData
  deriving DecidableEq, Repr

/-- OP = w[31:24]: 30_encoding.md R65. -/
def opField (w : Word) : BitVec 8 := w.extractLsb' 24 8

/-- ARG = w[23:0]: 30_encoding.md R65. -/
def argField (w : Word) : BitVec 24 := w.extractLsb' 0 24

/-- An instruction whose ARG bits from `lo` up must be zero: 30_encoding.md R67, R70. -/
def withZeroArgFrom (lo : Nat) (w : Word) (i : Instr) : Except DecodeError Instr :=
  if argField w >>> lo = 0#24 then .ok i else .error .nonzeroArg

/-- The command a CMD word encodes: 30_encoding.md R66 to R72. -/
def decodeCmd (w : Word) : Except DecodeError Instr :=
  if opField w = 0x01#8 then withZeroArgFrom 0 w .crcInit
  else if opField w = 0x02#8 then withZeroArgFrom 8 w (.crcAdd (w.extractLsb' 0 8))
  else if opField w = 0x03#8 then withZeroArgFrom 0 w .crcFinal
  else if opField w = 0x10#8 then withZeroArgFrom 3 w (.curRead (w.extractLsb' 0 3))
  else if opField w = 0x11#8 then withZeroArgFrom 3 w (.curWrite (w.extractLsb' 0 3))
  else if opField w = 0x20#8 then withZeroArgFrom 0 w .encode
  else if opField w = 0x21#8 then withZeroArgFrom 0 w .decode
  else .error .reservedOpcode

/-- S, bit 62 of a descriptor: 30_encoding.md R73. -/
def sizeField (d : Descriptor) : AccessSize := if d.getLsbD 62 then .word else .byte

/-- A = [51:32] of a descriptor: 30_encoding.md R73. -/
def addrField (d : Descriptor) : Addr := d.extractLsb' 32 20

/-- W = [31:0] of a descriptor: 30_encoding.md R73. -/
def dataField (d : Descriptor) : Word := d.extractLsb' 0 32

/-- The host transaction a descriptor encodes: 30_encoding.md R73. -/
def decodeBus (d : Descriptor) : Except DecodeError Instr :=
  if d.extractLsb' 52 10 ≠ 0#10 then .error .reservedDescriptorBits
  else if d.getLsbD 63 then
    if (sizeField d).holds (dataField d) then .ok (.busWr (sizeField d) (addrField d) (dataField d))
    else .error .wideByteData
  else if dataField d = 0#32 then .ok (.busRd (sizeField d) (addrField d))
  else .error .readWithData

/-- The decoder, total on both formats: 30_encoding.md R71, R73. -/
def decodeInstr : Encoding → Except DecodeError Instr
  | .command w => decodeCmd w
  | .transaction d => decodeBus d

/-- A command word from OP and ARG: 30_encoding.md R65. -/
def cmdWord (op : BitVec 8) (arg : BitVec 24) : Word := op ++ arg

/-- CRC_INIT's word: 30_encoding.md R67. -/
def crcInitWord : Word := cmdWord 0x01#8 0#24

/-- CRC_ADD's word: 30_encoding.md R67. -/
def crcAddWord (b : Byte) : Word := cmdWord 0x02#8 (b.setWidth 24)

/-- CRC_FINAL's word: 30_encoding.md R67. -/
def crcFinalWord : Word := cmdWord 0x03#8 0#24

/-- CUR_READ's word: 30_encoding.md R67. -/
def curReadWord (n : BitVec 3) : Word := cmdWord 0x10#8 (n.setWidth 24)

/-- CUR_WRITE's word: 30_encoding.md R67. -/
def curWriteWord (n : BitVec 3) : Word := cmdWord 0x11#8 (n.setWidth 24)

/-- ENCODE's word: 30_encoding.md R67. -/
def encodeWord : Word := cmdWord 0x20#8 0#24

/-- DECODE's word: 30_encoding.md R67. -/
def decodeWord : Word := cmdWord 0x21#8 0#24

/-- The size bit S: 30_encoding.md R73. -/
def sizeBit : AccessSize → BitVec 1
  | .byte => 0#1
  | .word => 1#1

/-- A descriptor from its fields D, S, A and W: 30_encoding.md R73. -/
def busDescriptor (d : BitVec 1) (size : AccessSize) (addr : Addr) (data : Word) : Descriptor :=
  d ++ sizeBit size ++ 0#10 ++ addr ++ data

/-- BUS_RD's descriptor: 30_encoding.md R73. -/
def busRdDescriptor (size : AccessSize) (addr : Addr) : Descriptor := busDescriptor 0#1 size addr 0#32

/-- BUS_WR's descriptor: 30_encoding.md R73. -/
def busWrDescriptor (size : AccessSize) (addr : Addr) (data : Word) : Descriptor :=
  busDescriptor 1#1 size addr data

/-- The encoder: 30_encoding.md R67 and R73. -/
def encodeInstr : Instr → Encoding
  | .crcInit => .command crcInitWord
  | .crcAdd b => .command (crcAddWord b)
  | .crcFinal => .command crcFinalWord
  | .curRead n => .command (curReadWord n)
  | .curWrite n => .command (curWriteWord n)
  | .encode => .command encodeWord
  | .decode => .command decodeWord
  | .busRd size addr => .transaction (busRdDescriptor size addr)
  | .busWr size addr data => .transaction (busWrDescriptor size addr data)

/-- The encoding an opcode-table word of `nbits` bits stands for: 32 bits are a CMD word and 64 bits
a BUS descriptor (30_encoding.md R64); bits above the format are none of its bits. -/
def tableEncoding (nbits w : Nat) : Option Encoding :=
  if 2 ^ nbits ≤ w then none
  else if nbits = 32 then some (.command (BitVec.ofNat 32 w))
  else if nbits = 64 then some (.transaction (BitVec.ofNat 64 w))
  else none

/-- The instruction the decoder reads from an opcode-table word. -/
def decodeTableWord (nbits w : Nat) : Option Instr :=
  match tableEncoding nbits w with
  | none => none
  | some e => (decodeInstr e).toOption

end Sys2Proof
end

