-- ==== Sys2Proof/Config.lean ====
section
/-! DEFINITION. The block's fixed parameters. 00_scope.md R5: none of them is left to the model as
a free argument, so every one is a constant here and the model has no free value. -/

namespace Sys2Proof.Config

/-- POLY, x^12 + x^5 + 1 (the x^16 term is implicit): 00_scope.md R5, R6. -/
def poly : Half := 0x1021#16

/-- SEED, the CRC register's initial value: 00_scope.md R5, 40_crc.md R77. -/
def seed : Half := 0xFFFF#16

/-- XOROUT, the final inversion: 00_scope.md R5, 40_crc.md R77. -/
def xorOut : Half := 0xFFFF#16

/-- HDR_BYTES: id 2, cnt 1, length 2 (00_scope.md R5). -/
def hdrBytes : Nat := 5

/-- CRC_BYTES (00_scope.md R5). -/
def crcBytes : Nat := 2

/-- OVERHEAD = HDR_BYTES + CRC_BYTES (00_scope.md R5). -/
def overhead : Nat := 7

/-- FBUF_SIZE = MAX_FRAME (00_scope.md R5). -/
def fbufSize : Nat := 65542

/-- PBUF_SIZE = MAX_PAYLOAD (00_scope.md R5). -/
def pbufSize : Nat := 65535

/-- The size of the register window in bytes: 20_memory.md R39. -/
def windowSize : Nat := 0x40

/-- FBUF's bus base: 20_memory.md R39, R47. -/
def fbufBase : Nat := 0x10000

/-- PBUF's bus base: 20_memory.md R39, R47. -/
def pbufBase : Nat := 0x30000

end Sys2Proof.Config
end

