-- ==== Sys2Proof/Machine/State.lean ====
section
/-! DEFINITION. The state of one JFC instance (10_state.md R12) with the run that drives it
(70_reset_and_hazards.md R137), the reasons a step can stop, and the state after RESET. -/

namespace Sys2Proof.Machine

/-- STATUS.RESULT, the outcome of the last DECODE: 10_state.md R19. -/
inductive DecodeResult where
  /-- No DECODE since reset. -/
  | none
  | ok
  | tooShort
  | lenMismatch
  | crcMismatch
  deriving DecidableEq, Repr

/-- FAULT.CAUSE, the first fault since reset: 60_exceptions.md R113. -/
inductive FaultCause where
  /-- No fault since reset. -/
  | none
  | busError
  | fieldRange
  | illegalCmd
  | crcReuse
  | cursorWidth
  | cursorBounds
  | uninitRead
  deriving DecidableEq, Repr

/-- CRC_STATE: 10_state.md R14. -/
inductive CrcState where
  /-- The instance accepts bytes. -/
  | accum
  /-- The value has been read out once. -/
  | final
  deriving DecidableEq, Repr

/-- A buffer: its valid bytes, each with its buffer offset. An unlisted offset is a byte whose valid
bit is clear (10_state.md R33 to R35; log 11). -/
abbrev Memory := List Host.Cell

/-- The canonical form: offsets strictly rising. -/
def Memory.wf (m : Memory) : Bool := decide (m.Pairwise fun c d => c.1 < d.1)

/-- Every listed offset exists in a buffer of `size` bytes. -/
def Memory.within (size : Nat) (m : Memory) : Bool := m.all fun c => decide (c.1 < size)

/-- One action of the host: a transaction, or RESET (which has no descriptor, 30_encoding.md R73). -/
inductive HostAction where
  /-- A BUS_RD or BUS_WR as its 64-bit descriptor: 30_encoding.md R73. -/
  | transaction (d : Descriptor)
  /-- The RESET action: 70_reset_and_hazards.md R128. -/
  | reset
  deriving DecidableEq, Repr

end Sys2Proof.Machine

namespace Sys2Proof.Machine

/-- The machine. A register that carries a valid bit is an `Option`: `none` is the spec's state
"invalid", valid bit clear (10_state.md R16, R33; log 4). CMD stores nothing (R17) and STATUS is
computed (R18 to R21), so neither has a field. -/
structure State where
  /-- STATUS.RESULT: 10_state.md R19. -/
  result : DecodeResult
  /-- FAULT.CAUSE: 10_state.md R22. -/
  faultCause : FaultCause
  /-- FAULTINFO: 10_state.md R23. -/
  faultInfo : Word
  /-- ID: 10_state.md R24. -/
  id : Option Half
  /-- CNT: 10_state.md R25. -/
  cnt : Option Byte
  /-- LEN: 10_state.md R26. -/
  len : Option Half
  /-- FLEN: 10_state.md R27. -/
  flen : Option Extent
  /-- OFF, which has no valid bit: 10_state.md R28. -/
  off : Extent
  /-- DATA: 10_state.md R29. -/
  data : Option Word
  /-- CRCREG, always valid: 10_state.md R14, R30. -/
  crcReg : Half
  /-- CRC_STATE: 10_state.md R14. -/
  crcState : CrcState
  /-- CRCVAL: 10_state.md R14, R31. -/
  crcVal : Option Half
  /-- FBUF, 65542 bytes, by offset: 10_state.md R34. -/
  fbuf : Memory
  /-- PBUF, 65535 bytes, by offset: 10_state.md R35. -/
  pbuf : Memory
  /-- The MODEL's own: the host actions still to come, oldest first (70_reset_and_hazards.md R137;
  log 1). -/
  host : List HostAction
  /-- The MODEL's own: the values BUS_RD transactions returned, oldest first
  (70_reset_and_hazards.md R137; log 2). -/
  reads : List Word
  deriving DecidableEq, Repr

/-- The reasons a step can stop the machine. There are none: every fault of 60_exceptions.md R113 is
recorded in FAULT and FAULTINFO and the block goes on in the faulted state (R115, R116), which is a
next state (log 13). -/
inductive Fault : Type
  deriving DecidableEq, Repr

/-- The reasons a step has no meaning. -/
inductive Refusal where
  /-- Raised by exec's arm of an instruction without a meaning; no arm of this model raises it. Safe. -/
  | notModelled (mnemonic : String)
  /-- Raised by step when the host's list holds 64 bits that spell no transaction; "a transcriber
  refuses it" (30_encoding.md R73; log 6). Safe. -/
  | notATransaction (d : Descriptor)
  deriving DecidableEq, Repr

/-- The state after RESET: 70_reset_and_hazards.md R128. The run's two lists are empty (logs 1, 2). -/
def State.reset : State where
  result := .none
  faultCause := .none
  faultInfo := 0#32
  id := none
  cnt := none
  len := none
  flen := none
  off := 0#17
  data := none
  crcReg := 0xFFFF#16
  crcState := .accum
  crcVal := none
  fbuf := []
  pbuf := []
  host := []
  reads := []

end Sys2Proof.Machine
end

