-- ==== Sys2Proof/Machine/Ops.lean ====
section
/-! DEFINITION. The named operations every meaning is written over: buffer bytes, the little-endian
cursor primitives, taking a fault, RESET (the only way out of one), and one atomic transaction. -/

namespace Sys2Proof.Machine

/-! ### Buffer bytes -/

/-- The byte at an offset; `none` is a byte whose valid bit is clear (10_state.md R33). -/
def Memory.read : Memory → Nat → Option Byte
  | [], _ => none
  | c :: m, a => if c.1 = a then some c.2 else Memory.read m a

/-- `bs` as cells at the offsets from `a` up. -/
def cellsFrom : Nat → List Byte → Memory
  | _, [] => []
  | a, b :: bs => (a, b) :: cellsFrom (a + 1) bs

/-- Write the bytes `bs` at the offsets from `a` up, setting their valid bits (10_state.md R33). -/
def Memory.store (m : Memory) (a : Nat) (bs : List Byte) : Memory :=
  m.filter (fun c => decide (c.1 < a)) ++ cellsFrom a bs
    ++ m.filter (fun c => decide (a + bs.length ≤ c.1))

/-- Read `n` bytes from offset `a` up. The error is the first invalid offset in ascending order
(41_cursor.md R87, 60_exceptions.md R117 item 7). -/
def Memory.load (m : Memory) : Nat → Nat → Except Nat (List Byte)
  | _, 0 => .ok []
  | a, n + 1 =>
    match m.read a with
    | none => .error a
    | some b =>
      match Memory.load m (a + 1) n with
      | .ok bs => .ok (b :: bs)
      | .error k => .error k

/-! ### The little-endian cursor primitives -/

/-- The value LeRead forms from its bytes, lowest offset first: v | (buf[off + k] << 8k)
(41_cursor.md R87). -/
def leValue : List Byte → Word
  | [] => 0#32
  | b :: bs => b.setWidth 32 ||| (leValue bs <<< 8)

/-- The bytes LeWrite stores: v[8k+7 : 8k] for k in 0 .. n-1 (41_cursor.md R88). -/
def leBytes : Nat → Word → List Byte
  | 0, _ => []
  | n + 1, v => v.extractLsb' 0 8 :: leBytes n (v >>> 8)

/-! ### Taking a fault, and RESET -/

/-- What `raise CAUSE(info)` names: 60_exceptions.md R115. -/
structure Raised where
  cause : FaultCause
  info : Word
  deriving DecidableEq, Repr

/-- The block is faulted when FAULT.CAUSE is not 0: 10_state.md R36. -/
def State.isFaulted (s : State) : Bool := decide (s.faultCause ≠ .none)

/-- The fault record: 60_exceptions.md R115. `s` is the state before the transaction, so that every
write of the transaction is discarded; only the first fault is kept; nothing else is saved. -/
def State.raise (s : State) (e : Raised) : State :=
  if s.faultCause = .none then { s with faultCause := e.cause, faultInfo := e.info } else s

/-- The RESET action, taken in every state: 70_reset_and_hazards.md R128. There is no other return
from a fault (60_exceptions.md R120). The run's lists are no state of the block (10_state.md R37;
log 12). -/
def State.hostReset (s : State) : State := { State.reset with host := s.host, reads := s.reads }

/-! ### One transaction -/

/-- The outcome of a checked body: its state, or the fault record on the state before it
(00_scope.md R9, 20_memory.md R49). -/
def settle (s : State) : Except Raised State → State
  | .ok t => t
  | .error e => s.raise e

/-- A transaction that returns no value. While the block is faulted it is ignored
(60_exceptions.md R116). -/
def transact (s : State) (body : Except Raised State) : Host.Outcome State Fault Refusal :=
  if s.isFaulted then .next s else .next (settle s body)

/-- The host receives the value of a BUS_RD: 70_reset_and_hazards.md R137 (log 2). -/
def State.returning (s : State) (v : Word) : State := { s with reads := s.reads ++ [v] }

/-- A read transaction: the value it returns, or the fault record and no value (log 2). -/
def settleRead (s : State) : Except Raised Word → State
  | .ok v => s.returning v
  | .error e => s.raise e

/-! ### Buffer accesses with their faults -/

/-- FbufAddr(a) = 0x10000 + a, as an information word: 20_memory.md R47. -/
def fbufInfo (a : Nat) : Word := BitVec.ofNat 32 (Config.fbufBase + a)

/-- PbufAddr(a) = 0x30000 + a, as an information word: 20_memory.md R47. -/
def pbufInfo (a : Nat) : Word := BitVec.ofNat 32 (Config.pbufBase + a)

/-- Read FBUF[a .. a+n); the first invalid byte faults UNINIT_READ (10_state.md R33). -/
def State.loadFrame (s : State) (a n : Nat) : Except Raised (List Byte) :=
  match s.fbuf.load a n with
  | .ok bs => .ok bs
  | .error k => .error ⟨.uninitRead, fbufInfo k⟩

/-- Read PBUF[a .. a+n); the first invalid byte faults UNINIT_READ (10_state.md R33). -/
def State.loadPayload (s : State) (a n : Nat) : Except Raised (List Byte) :=
  match s.pbuf.load a n with
  | .ok bs => .ok bs
  | .error k => .error ⟨.uninitRead, pbufInfo k⟩

/-- LeRead(FBUF, off, n): 41_cursor.md R87. -/
def State.leReadFrame (s : State) (off n : Nat) : Except Raised Word :=
  match s.loadFrame off n with
  | .ok bs => .ok (leValue bs)
  | .error e => .error e

/-- FBUF[a ..] <- bs. FLEN does not change (20_memory.md R51). -/
def State.storeFrame (s : State) (a : Nat) (bs : List Byte) : State :=
  { s with fbuf := s.fbuf.store a bs }

/-- PBUF[a ..] <- bs. LEN does not change (20_memory.md R51). -/
def State.storePayload (s : State) (a : Nat) (bs : List Byte) : State :=
  { s with pbuf := s.pbuf.store a bs }

end Sys2Proof.Machine
end

