-- ==== Sys2Proof/Machine/Flags.lean ====
section
/-! DEFINITION. The codes of the block's condition fields and the STATUS word computed from them. -/

namespace Sys2Proof.Machine

/-- The code of STATUS.RESULT; 5 to 7 are never written: 10_state.md R19. -/
def DecodeResult.code : DecodeResult → BitVec 3
  | .none => 0
  | .ok => 1
  | .tooShort => 2
  | .lenMismatch => 3
  | .crcMismatch => 4

/-- The code of FAULT.CAUSE; 8 to 15 are never written: 60_exceptions.md R113. -/
def FaultCause.code : FaultCause → BitVec 4
  | .none => 0
  | .busError => 1
  | .fieldRange => 2
  | .illegalCmd => 3
  | .crcReuse => 4
  | .cursorWidth => 5
  | .cursorBounds => 6
  | .uninitRead => 7

/-- STATUS.FAULTED, 1 exactly when FAULT.CAUSE is not 0: 10_state.md R20. -/
def State.faultedBit (s : State) : BitVec 1 := BitVec.ofBool s.isFaulted

/-- STATUS.CRC_FINAL, 1 exactly when CRC_STATE = FINAL: 10_state.md R21. -/
def State.crcFinalBit (s : State) : BitVec 1 := BitVec.ofBool (decide (s.crcState = .final))

/-- STATUS = zext_32(CRC_FINAL ++ FAULTED ++ RESULT): 10_state.md R18, 20_memory.md R54. -/
def State.statusWord (s : State) : Word :=
  (s.crcFinalBit ++ s.faultedBit ++ s.result.code).setWidth 32

/-- FAULT = zext_32(CAUSE): 10_state.md R22, 20_memory.md R54. -/
def State.faultWord (s : State) : Word := s.faultCause.code.setWidth 32

end Sys2Proof.Machine
end

