-- ==== Sys2Proof/Machine/Operands.lean ====
section
/-! DEFINITION. The operand forms: the register window, bus addresses, and register operands with
their valid bits and field ranges. -/

namespace Sys2Proof.Machine

/-- The registers of the window: 10_state.md R16. -/
inductive Reg where
  | cmd
  | status
  | fault
  | faultInfo
  | id
  | cnt
  | len
  | flen
  | off
  | data
  | crcReg
  | crcVal
  deriving DecidableEq, Repr

/-- A register's bus address: 10_state.md R16. -/
def regAddr : Reg → Addr
  | .cmd => 0x00000#20
  | .status => 0x00004#20
  | .fault => 0x00008#20
  | .faultInfo => 0x0000C#20
  | .id => 0x00010#20
  | .cnt => 0x00014#20
  | .len => 0x00018#20
  | .flen => 0x0001C#20
  | .off => 0x00020#20
  | .data => 0x00024#20
  | .crcReg => 0x00028#20
  | .crcVal => 0x0002C#20

/-- The registers in the order of 10_state.md R16. -/
def allRegs : List Reg :=
  [.cmd, .status, .fault, .faultInfo, .id, .cnt, .len, .flen, .off, .data, .crcReg, .crcVal]

/-- The register at a bus address. There is none at a misaligned address of the window or at the
reserved words 0x30 to 0x3C (10_state.md R16, R32). -/
def regAt (addr : Addr) : Option Reg := allRegs.find? fun r => decide (regAddr r = addr)

/-- What a host transaction may reach: 20_memory.md R39. -/
inductive Place where
  | register (r : Reg)
  | frame (a : Nat)
  | payload (a : Nat)
  deriving DecidableEq, Repr

/-- The place a transaction of this size reaches at this address: the window takes aligned 4-byte
accesses, the buffers 1-byte accesses, and nothing else is mapped (20_memory.md R39, R46, R47). -/
def place (size : AccessSize) (addr : Addr) : Option Place :=
  if addr.toNat < Config.windowSize then
    if size = .word then (regAt addr).map .register else none
  else if Config.fbufBase ≤ addr.toNat ∧ addr.toNat < Config.fbufBase + Config.fbufSize then
    if size = .byte then some (.frame (addr.toNat - Config.fbufBase)) else none
  else if Config.pbufBase ≤ addr.toNat ∧ addr.toNat < Config.pbufBase + Config.pbufSize then
    if size = .byte then some (.payload (addr.toNat - Config.pbufBase)) else none
  else none

/-- The information word of a fault about an address, zext_32 of it: 60_exceptions.md R114. -/
def addrInfo (addr : Addr) : Word := addr.setWidth 32

/-- Read a register that carries a valid bit; an invalid one faults UNINIT_READ with its address
(10_state.md R33). -/
def validated {n : Nat} (r : Reg) (v : Option (BitVec n)) : Except Raised (BitVec n) :=
  match v with
  | some x => .ok x
  | none => .error ⟨.uninitRead, addrInfo (regAddr r)⟩

/-- The value a BUS_RD of a register returns: 20_memory.md R54. -/
def readReg (s : State) : Reg → Except Raised Word
  | .cmd => .ok 0#32
  | .status => .ok s.statusWord
  | .fault => .ok s.faultWord
  | .faultInfo => .ok s.faultInfo
  | .id => (validated .id s.id).map (BitVec.setWidth 32)
  | .cnt => (validated .cnt s.cnt).map (BitVec.setWidth 32)
  | .len => (validated .len s.len).map (BitVec.setWidth 32)
  | .flen => (validated .flen s.flen).map (BitVec.setWidth 32)
  | .off => .ok (s.off.setWidth 32)
  | .data => validated .data s.data
  | .crcReg => .ok (s.crcReg.setWidth 32)
  | .crcVal => (validated .crcVal s.crcVal).map (BitVec.setWidth 32)

/-- A write of `w` to a register field of `n` bits: a bit set above the field faults FIELD_RANGE with
the register's address and stores nothing (10_state.md R24 to R28, 20_memory.md R56). -/
def inField (n : Nat) (r : Reg) (w : Word) : Except Raised (BitVec n) :=
  if w.toNat < 2 ^ n then .ok (w.setWidth n) else .error ⟨.fieldRange, addrInfo (regAddr r)⟩

end Sys2Proof.Machine
end

