-- ==== Sys2Proof/Machine/Crc.lean ====
section
/-! DEFINITION. The CRC function (40_crc.md R77 to R82) and the commands of the CRC unit
(40_crc.md R83 to R86). -/

namespace Sys2Proof.Machine

/-- One bit of CrcStep, `t` a 17-bit value with t[16] = r[15]: 40_crc.md R78, R80. -/
def crcBit (r : Half) (b : Bool) : Half :=
  let t : BitVec 17 := r.setWidth 17 <<< 1
  let fb := t.getLsbD 16 ^^ b
  let t' := if fb then t ^^^ Config.poly.setWidth 17 else t
  t'.setWidth 16

/-- CrcStep(r, b), the byte's most significant bit first: 40_crc.md R78. -/
def crcStep (r : Half) (b : Byte) : Half :=
  [7, 6, 5, 4, 3, 2, 1, 0].foldl (fun r i => crcBit r (b.getLsbD i)) r

/-- CrcOver(bytes), lowest index first: 40_crc.md R79. -/
def crcOver (bs : List Byte) : Half := bs.foldl crcStep Config.seed

/-- CrcFinal(r) = r ^ 0xFFFF: 40_crc.md R79. -/
def crcFinalize (r : Half) : Half := r ^^^ Config.xorOut

/-- CrcValue(bytes): 40_crc.md R79. -/
def crcValue (bs : List Byte) : Half := crcFinalize (crcOver bs)

/-- CRC_INIT: 40_crc.md R83. CRCVAL and RESULT are unchanged. -/
def execCrcInit (s : State) : Host.Outcome State Fault Refusal :=
  transact s (.ok { s with crcReg := Config.seed, crcState := .accum })

/-- CRC_ADD b: 40_crc.md R84. -/
def execCrcAdd (b : Byte) (s : State) : Host.Outcome State Fault Refusal :=
  transact s <|
    if s.crcState = .final then .error ⟨.crcReuse, crcAddWord b⟩
    else .ok { s with crcReg := crcStep s.crcReg b }

/-- CRC_FINAL: 40_crc.md R85. CRCREG is unchanged. -/
def execCrcFinal (s : State) : Host.Outcome State Fault Refusal :=
  transact s <|
    if s.crcState = .final then .error ⟨.crcReuse, crcFinalWord⟩
    else .ok { s with crcVal := some (crcFinalize s.crcReg), crcState := .final }

end Sys2Proof.Machine
end

