-- ==== Sys2Proof/Machine/Codec.lean ====
section
/-! DEFINITION. The framing codec (42_codec.md R94 to R111). Its CRC accumulator and cursor are
private to a command and no state (10_state.md R15). -/

namespace Sys2Proof.Machine

/-- The 5-byte header: id, counter, length, little-endian (42_codec.md R94). -/
def headerBytes (id : Half) (cnt : Byte) (len : Half) : List Byte :=
  leBytes 2 (id.setWidth 32) ++ leBytes 1 (cnt.setWidth 32) ++ leBytes 2 (len.setWidth 32)

/-- The well-formed frame of (id, cnt, payload) with the length field `len`: header, payload, and the
CRC of both, little-endian (42_codec.md R94, R95). -/
def frameBytes (id : Half) (cnt : Byte) (len : Half) (payload : List Byte) : List Byte :=
  let covered := headerBytes id cnt len ++ payload
  covered ++ leBytes 2 ((crcValue covered).setWidth 32)

/-- The checks and writes of ENCODE: 42_codec.md R97. Its writes LeWrite and copy the consecutive
bytes FBUF[0 .. 7+LEN), so they are one store of the frame (log 10). -/
def encodeBody (s : State) : Except Raised State := do
  let id ← validated .id s.id
  let cnt ← validated .cnt s.cnt
  let n ← validated .len s.len
  let p ← s.loadPayload 0 n.toNat
  .ok { s.storeFrame 0 (frameBytes id cnt n p) with
    flen := some (BitVec.ofNat 17 (Config.overhead + n.toNat)) }

/-- ENCODE: 42_codec.md R97. -/
def execEncode (s : State) : Host.Outcome State Fault Refusal := transact s (encodeBody s)

/-- `result K`: for K ≠ OK nothing else is written (42_codec.md R99). -/
def State.failing (s : State) (k : DecodeResult) : State := { s with result := k }

/-- Step 7 of DECODE, the writes of a success: 42_codec.md R98. -/
def State.delivering (s : State) (id : Half) (cnt : Byte) (len : Half) (payload : List Byte) : State :=
  { s.storePayload 0 payload with id := some id, cnt := some cnt, len := some len, result := .ok }

/-- Steps 4 to 7 of DECODE, the declared length `dl` being L - 7: 42_codec.md R98. -/
def decodeChecked (s : State) (id cnt dl : Word) : Except Raised State := do
  let covered ← s.loadFrame 0 (Config.hdrBytes + dl.toNat)
  let t ← s.leReadFrame (Config.hdrBytes + dl.toNat) Config.crcBytes
  if (crcValue covered).setWidth 32 ≠ t then .ok (s.failing .crcMismatch)
  else
    .ok (s.delivering (id.setWidth 16) (cnt.setWidth 8) (dl.setWidth 16)
      (covered.drop Config.hdrBytes))

/-- Steps 2 and 3 of DECODE, the header and its length check: 42_codec.md R98. -/
def decodeHeader (s : State) (l : Extent) : Except Raised State := do
  let id ← s.leReadFrame 0 2
  let cnt ← s.leReadFrame 2 1
  let dl ← s.leReadFrame 3 2
  if dl.toNat ≠ l.toNat - Config.overhead then .ok (s.failing .lenMismatch)
  else decodeChecked s id cnt dl

/-- The checks and writes of DECODE in order: 42_codec.md R98, R100. -/
def decodeBody (s : State) : Except Raised State := do
  let l ← validated .flen s.flen
  if l.toNat < Config.overhead then .ok (s.failing .tooShort) else decodeHeader s l

/-- DECODE: 42_codec.md R98. -/
def execDecode (s : State) : Host.Outcome State Fault Refusal := transact s (decodeBody s)

end Sys2Proof.Machine
end

