-- ==== Sys2Proof/Machine/Cursor.lean ====
section
/-! DEFINITION. The host cursor commands (41_cursor.md R87 to R93). -/

namespace Sys2Proof.Machine

/-- The cursor's bound, min(FLEN, 65542): 41_cursor.md R90. -/
def cursorBound (flen : Extent) : Nat := min flen.toNat Config.fbufSize

/-- Precondition 1, 1 ≤ n ≤ 4: 41_cursor.md R90. -/
def widthChecked (n : BitVec 3) (w : Word) : Except Raised Nat :=
  if 1 ≤ n.toNat ∧ n.toNat ≤ 4 then .ok n.toNat else .error ⟨.cursorWidth, w⟩

/-- Precondition 3, OFF + n ≤ min(FLEN, 65542), the sum computed exactly: 41_cursor.md R90. -/
def boundsChecked (flen off : Extent) (n : Nat) (w : Word) : Except Raised Nat :=
  if off.toNat + n ≤ cursorBound flen then .ok off.toNat else .error ⟨.cursorBounds, w⟩

/-- "advances offset by n": 41_cursor.md R89. -/
def advanced (off : Extent) (n : Nat) : Extent := BitVec.ofNat 17 (off.toNat + n)

/-- The checks and writes of CUR_READ in order: 41_cursor.md R91. -/
def curReadBody (count : BitVec 3) (s : State) : Except Raised State := do
  let n ← widthChecked count (curReadWord count)
  let l ← validated .flen s.flen
  let o ← boundsChecked l s.off n (curReadWord count)
  let v ← s.leReadFrame o n
  .ok { s with data := some v, off := advanced s.off n }

/-- The checks and writes of CUR_WRITE in order: 41_cursor.md R92. -/
def curWriteBody (count : BitVec 3) (s : State) : Except Raised State := do
  let n ← widthChecked count (curWriteWord count)
  let v ← validated .data s.data
  let l ← validated .flen s.flen
  let o ← boundsChecked l s.off n (curWriteWord count)
  .ok { s.storeFrame o (leBytes n v) with off := advanced s.off n }

/-- CUR_READ n: 41_cursor.md R91. -/
def execCurRead (count : BitVec 3) (s : State) : Host.Outcome State Fault Refusal :=
  transact s (curReadBody count s)

/-- CUR_WRITE n: 41_cursor.md R92. -/
def execCurWrite (count : BitVec 3) (s : State) : Host.Outcome State Fault Refusal :=
  transact s (curWriteBody count s)

end Sys2Proof.Machine
end

