-- ==== Sys2Proof/Machine/Bus.lean ====
section
/-! DEFINITION. The host transactions BUS_RD and BUS_WR (20_memory.md R38 to R63) and the dispatch of
the command a CMD write carries (30_encoding.md R72). -/

namespace Sys2Proof.Machine

/-- One byte a host transaction reads: 20_memory.md R55. -/
def byteValue (bs : List Byte) : Word := leValue bs

/-- The value of a BUS_RD while the block is not faulted: 20_memory.md R55. -/
def busReadValue (size : AccessSize) (addr : Addr) (s : State) : Except Raised Word :=
  match place size addr with
  | none => .error ⟨.busError, addrInfo addr⟩
  | some (.register r) => readReg s r
  | some (.frame a) => s.leReadFrame a 1
  | some (.payload a) => (s.loadPayload a 1).map byteValue

/-- The value of a BUS_RD while the block is faulted: STATUS, FAULT and FAULTINFO answer a 4-byte
read, everything else is 0 (60_exceptions.md R116, 20_memory.md R55). -/
def faultedReadValue (size : AccessSize) (addr : Addr) (s : State) : Word :=
  match place size addr with
  | some (.register .status) => s.statusWord
  | some (.register .fault) => s.faultWord
  | some (.register .faultInfo) => s.faultInfo
  | _ => 0#32

/-- BUS_RD(addr, n): 20_memory.md R55. -/
def execBusRd (size : AccessSize) (addr : Addr) (s : State) : Host.Outcome State Fault Refusal :=
  if s.isFaulted then .next (s.returning (faultedReadValue size addr s))
  else .next (settleRead s (busReadValue size addr s))

/-- Execute(w), run by a BUS_WR to CMD: 30_encoding.md R72. A word that decodes to no command faults
ILLEGAL_CMD with the word (R69, R70); a CMD word never decodes to a host transaction. -/
def execute (w : Word) (s : State) : Host.Outcome State Fault Refusal :=
  match decodeCmd w with
  | .ok .crcInit => execCrcInit s
  | .ok (.crcAdd b) => execCrcAdd b s
  | .ok .crcFinal => execCrcFinal s
  | .ok (.curRead n) => execCurRead n s
  | .ok (.curWrite n) => execCurWrite n s
  | .ok .encode => execEncode s
  | .ok .decode => execDecode s
  | .ok (.busRd _ _) => transact s (.error ⟨.illegalCmd, w⟩)
  | .ok (.busWr _ _ _) => transact s (.error ⟨.illegalCmd, w⟩)
  | .error _ => transact s (.error ⟨.illegalCmd, w⟩)

/-- A write of a register: 20_memory.md R56. A register the host may not write faults BUS_ERROR
(20_memory.md R52 item 4). CMD itself stores nothing (10_state.md R17). -/
def regWriteBody (r : Reg) (w : Word) (s : State) : Except Raised State :=
  match r with
  | .id => (inField 16 .id w).map fun v => { s with id := some v }
  | .cnt => (inField 8 .cnt w).map fun v => { s with cnt := some v }
  | .len => (inField 16 .len w).map fun v => { s with len := some v }
  | .flen => (inField 17 .flen w).map fun v => { s with flen := some v }
  | .off => (inField 17 .off w).map fun v => { s with off := v }
  | .data => .ok { s with data := some w }
  | .cmd => .ok s
  | .status => .error ⟨.busError, addrInfo (regAddr .status)⟩
  | .fault => .error ⟨.busError, addrInfo (regAddr .fault)⟩
  | .faultInfo => .error ⟨.busError, addrInfo (regAddr .faultInfo)⟩
  | .crcReg => .error ⟨.busError, addrInfo (regAddr .crcReg)⟩
  | .crcVal => .error ⟨.busError, addrInfo (regAddr .crcVal)⟩

/-- What a BUS_WR that does not write CMD does: 20_memory.md R56. -/
def busWriteBody (p : Option Place) (addr : Addr) (w : Word) (s : State) : Except Raised State :=
  match p with
  | none => .error ⟨.busError, addrInfo addr⟩
  | some (.register r) => regWriteBody r w s
  | some (.frame a) => .ok (s.storeFrame a [w.setWidth 8])
  | some (.payload a) => .ok (s.storePayload a [w.setWidth 8])

/-- BUS_WR(addr, n, w): 20_memory.md R56. A write of CMD runs the command as part of the same
transaction (10_state.md R17). -/
def execBusWr (size : AccessSize) (addr : Addr) (w : Word) (s : State) :
    Host.Outcome State Fault Refusal :=
  if s.isFaulted then .next s
  else
    match place size addr with
    | some (.register .cmd) => execute w s
    | p => transact s (busWriteBody p addr w s)

end Sys2Proof.Machine
end

