-- ==== Sys2Proof/Machine/Dispatch.lean ====
section
/-! DEFINITION. One arm per constructor of Instr. -/

namespace Sys2Proof.Machine

def exec (i : Instr) (s : State) : Host.Outcome State Fault Refusal :=
  match i with
  | .crcInit => Sys2Proof.Machine.execCrcInit s
  | .crcAdd b => Sys2Proof.Machine.execCrcAdd b s
  | .crcFinal => Sys2Proof.Machine.execCrcFinal s
  | .curRead n => Sys2Proof.Machine.execCurRead n s
  | .curWrite n => Sys2Proof.Machine.execCurWrite n s
  | .encode => Sys2Proof.Machine.execEncode s
  | .decode => Sys2Proof.Machine.execDecode s
  | .busRd size addr => Sys2Proof.Machine.execBusRd size addr s
  | .busWr size addr data => Sys2Proof.Machine.execBusWr size addr data s

end Sys2Proof.Machine
end

