-- ==== Sys2Proof/Machine/Fetch.lean ====
section
/-! DEFINITION. How the host's next action reaches the block. The block fetches nothing
(20_memory.md R61); the host issues its list one action at a time (70_reset_and_hazards.md R137;
log 1). -/

namespace Sys2Proof.Machine

/-- What the host does next. -/
inductive NextAction where
  /-- The host issues nothing: the block waits for it (70_reset_and_hazards.md R129; log 3). -/
  | wait
  /-- RESET, taken in the state `s`. -/
  | reset (s : State)
  /-- The transaction `i`, taken in the state `s`. -/
  | run (i : Instr) (s : State)
  /-- The bits spell no transaction. -/
  | refused (r : Refusal)

/-- Take the first action off the host's list. -/
def nextAction (s : State) : NextAction :=
  match s.host with
  | [] => .wait
  | .reset :: rest => .reset { s with host := rest }
  | .transaction d :: rest =>
    match decodeBus d with
    | .ok i => .run i { s with host := rest }
    | .error _ => .refused (.notATransaction d)

/-- The host action that has the block run an opcode-table word: a 64-bit descriptor is the
transaction itself (30_encoding.md R73), and a 32-bit command word is the data of a BUS_WR to CMD
(10_state.md R17, 30_encoding.md R75). -/
def tableAction (nbits w : Nat) : HostAction :=
  if nbits ≤ 32 then .transaction (busWrDescriptor .word 0x00000#20 (BitVec.ofNat 32 w))
  else .transaction (BitVec.ofNat 64 w)

end Sys2Proof.Machine
end

