-- ==== Sys2Proof/Machine/Step.lean ====
section
/-! DEFINITION. One step: the effect of the host's next action, atomic (20_memory.md R49, R57). -/

namespace Sys2Proof.Machine

def step (s : State) : Host.Outcome State Fault Refusal :=
  match nextAction s with
  | .wait => .next s
  | .reset t => .next t.hostReset
  | .run i t => exec i t
  | .refused r => .refused r

/-- `s` with the instruction of an opcode-table word as the host's next action (log 1). -/
def State.withFetchWord (s : State) (nbits w : Nat) : State :=
  { s with host := tableAction nbits w :: s.host }

end Sys2Proof.Machine
end

