-- ==== Sys2Proof/Machine/Assembler.lean ====
section
/-! DEFINITION. The host's transaction syntax and its pseudo-instructions as the host actions they
stand for (30_encoding.md R74 to R76). -/

namespace Sys2Proof.Machine

/-- The bus address FBUF+k: 30_encoding.md R74. DESIGN CHOICE, unsafe (log 14): R74 gives k no range,
and from k = 0xF0000 on, where the sum leaves the 20-bit space, it is taken modulo 2^20. -/
def fbufAddr (k : Nat) : Addr := BitVec.ofNat 20 (Config.fbufBase + k)

/-- The bus address PBUF+k: 30_encoding.md R74. DESIGN CHOICE, unsafe (log 14): R74 gives k no range,
and from k = 0xD0000 on, where the sum leaves the 20-bit space, it is taken modulo 2^20. -/
def pbufAddr (k : Nat) : Addr := BitVec.ofNat 20 (Config.pbufBase + k)

/-- `rd.w A`: 30_encoding.md R74. -/
def asmRdWord (addr : Addr) : HostAction := .transaction (busRdDescriptor .word addr)

/-- `wr.w A, V`: 30_encoding.md R74. -/
def asmWrWord (addr : Addr) (v : Word) : HostAction := .transaction (busWrDescriptor .word addr v)

/-- `rd.b A`: 30_encoding.md R74. -/
def asmRdByte (addr : Addr) : HostAction := .transaction (busRdDescriptor .byte addr)

/-- `wr.b A, V`: 30_encoding.md R74. -/
def asmWrByte (addr : Addr) (v : Byte) : HostAction :=
  .transaction (busWrDescriptor .byte addr (v.setWidth 32))

/-- `rd REG`: 30_encoding.md R74. -/
def asmRd (r : Reg) : HostAction := asmRdWord (regAddr r)

/-- `wr REG, V`: 30_encoding.md R74. -/
def asmWr (r : Reg) (v : Word) : HostAction := asmWrWord (regAddr r) v

/-- A command mnemonic stands for exactly one `wr CMD, word`: 30_encoding.md R75. A host transaction
is its own descriptor. -/
def asmInstr (i : Instr) : HostAction :=
  match encodeInstr i with
  | .command w => asmWr .cmd w
  | .transaction d => .transaction d

/-- One action per byte, at ascending offsets. -/
def asmFill (addr : Nat → Addr) : Nat → List Byte → List HostAction
  | _, [] => []
  | k, b :: bs => asmWrByte (addr k) b :: asmFill addr (k + 1) bs

/-- `fbuf.fill K, b0, …, bm`: 30_encoding.md R76, with `fbufAddr`'s choice past the address space
(log 14). -/
def asmFbufFill (k : Nat) (bs : List Byte) : List HostAction := asmFill fbufAddr k bs

/-- `pbuf.fill K, b0, …, bm`: 30_encoding.md R76, with `pbufAddr`'s choice past the address space
(log 14). -/
def asmPbufFill (k : Nat) (bs : List Byte) : List HostAction := asmFill pbufAddr k bs

/-- `crc.bytes b0, …, bm`: 30_encoding.md R76. -/
def asmCrcBytes (bs : List Byte) : List HostAction := bs.map fun b => asmInstr (.crcAdd b)

/-- `cur.seek K`: 30_encoding.md R76. -/
def asmCurSeek (k : Word) : List HostAction := [asmWr .off k]

/-- `frame.build I, C, b0, …, bm`, the payload empty in its second form: 30_encoding.md R76. DESIGN
CHOICE, unsafe (log 14): a count of 2^32 bytes or more, which no word holds, is taken modulo 2^32. -/
def asmFrameBuild (id cnt : Word) (bs : List Byte) : List HostAction :=
  [asmWr .id id, asmWr .cnt cnt, asmWr .len (BitVec.ofNat 32 bs.length)] ++ asmPbufFill 0 bs
    ++ [asmInstr .encode]

/-- `frame.parse b0, …, bm`: 30_encoding.md R76. DESIGN CHOICE, unsafe (log 14): a count of 2^32 bytes
or more, which no word holds, is taken modulo 2^32. -/
def asmFrameParse (bs : List Byte) : List HostAction :=
  asmFbufFill 0 bs ++ [asmWr .flen (BitVec.ofNat 32 bs.length), asmInstr .decode]

end Sys2Proof.Machine
end

