-- ==== Sys2Proof/Safety.lean ====
section
/-! DEFINITION. The terms claims use: what a state that RESET can lead to keeps, what a run is, and
when it is faulted. -/

namespace Sys2Proof.Machine

/-- What every step keeps (a claim, not a requirement of a run). -/
structure State.Inv (s : State) : Prop where
  /-- FBUF's cells are in canonical form (log 11). -/
  fbuf_wf : s.fbuf.wf = true
  /-- FBUF has offsets 0..65541: 10_state.md R34. -/
  fbuf_within : s.fbuf.within Config.fbufSize = true
  /-- PBUF's cells are in canonical form (log 11). -/
  pbuf_wf : s.pbuf.wf = true
  /-- PBUF has offsets 0..65534: 10_state.md R35. -/
  pbuf_within : s.pbuf.within Config.pbufSize = true
  /-- FAULTINFO is 0 when FAULT.CAUSE = 0: 10_state.md R23. -/
  info_zero : s.faultCause = .none → s.faultInfo = 0#32
  /-- While the instance is finalized CRCVAL is the inverse of CRCREG: 40_crc.md R85, R86. -/
  final_value : s.crcState = .final → s.crcVal = some (s.crcReg ^^^ 0xFFFF#16)
  /-- DECODE reads FLEN before it writes RESULT: 42_codec.md R98. -/
  decoded_flen : s.result ≠ .none → s.flen.isSome = true
  /-- A successful DECODE writes ID, CNT and LEN, and only RESET clears a valid bit: 42_codec.md R98,
  10_state.md R33. -/
  decoded_ok : s.result = .ok → s.id.isSome = true ∧ s.cnt.isSome = true ∧ s.len.isSome = true

/-- The states a run from RESET can be in, whatever the host's list is
(70_reset_and_hazards.md R137). -/
inductive Reachable : State → Prop where
  | start (actions : List HostAction) : Reachable { State.reset with host := actions }
  | next {s t : State} (h : Reachable s) (hstep : step s = .next t) : Reachable t

/-- A run: a start state and the host's list, ended when the list is exhausted
(70_reset_and_hazards.md R137). Its observation is the final state's `reads` and the final state. -/
def runOf (actions : List HostAction) (start : State) : Host.Outcome State Fault Refusal :=
  Host.Core.run Sys2Proof.core actions.length { start with host := actions, reads := [] }

/-- A run is faulted if its final state has FAULT.CAUSE ≠ 0: 70_reset_and_hazards.md R137. -/
def runFaulted (actions : List HostAction) (start : State) : Prop :=
  ∃ t, runOf actions start = .next t ∧ t.isFaulted = true

end Sys2Proof.Machine
end

