-- ==== Sys2Proof/Certificates/Slice0/Obligations.lean ====
section
/-! DEFINITION. The statements for the provers, from the numbered rules of spec/. A statement about a
faulting form says the fault record it takes, which is a next state (60_exceptions.md R115). -/

namespace Sys2Proof.Claims

open Sys2Proof.Machine

/-! ### The terms of the statements -/

/-- "the state before the faulting transaction, plus FAULT and FAULTINFO": 60_exceptions.md R115. -/
def raised (s : State) (c : FaultCause) (info : Word) : State :=
  { s with faultCause := c, faultInfo := info }

/-- A BUS_RD returned `v` and changed nothing: 20_memory.md R50 (the run's record, log 2). -/
def got (s : State) (v : Word) : State := { s with reads := s.reads ++ [v] }

/-- The bytes from offset `a` up are valid and are `bs`. -/
def bytesAt (m : Memory) (a : Nat) (bs : List Byte) : Prop :=
  ∀ k, k < bs.length → m.read (a + k) = bs[k]?

/-- `x` is the first offset of [lo, hi) whose valid bit is clear: 60_exceptions.md R117 item 7. -/
def firstInvalid (m : Memory) (lo hi x : Nat) : Prop :=
  lo ≤ x ∧ x < hi ∧ m.read x = none ∧ ∀ y, lo ≤ y → y < x → m.read y ≠ none

/-- `m'` is `m` with `bs` stored from offset `a` up, read byte by byte. -/
def storedAt (m m' : Memory) (a : Nat) (bs : List Byte) : Prop :=
  bytesAt m' a bs ∧ ∀ x, x < a ∨ a + bs.length ≤ x → m'.read x = m.read x

/-- LeRead's loop: 41_cursor.md R87. -/
def leWord (f : Nat → Byte) (n : Nat) : Word :=
  (List.range n).foldl (fun v k => v ||| ((f k).setWidth 32 <<< (8 * k))) 0#32

/-- The bytes LeWrite stores, v[8k+7 : 8k] for k in 0 .. n-1: 41_cursor.md R88. -/
def leList (n : Nat) (v : Word) : List Byte := (List.range n).map fun k => v.extractLsb' (8 * k) 8

/-- One bit of CrcStep in its second form, fb = r[15] ^ b[i]: 40_crc.md R78. -/
def crcBitRule (r : Half) (b : Bool) : Half :=
  (r <<< 1) ^^^ (if r.getLsbD 15 ^^ b then 0x1021#16 else 0#16)

/-- The well-formed frame of (id, cnt, p): 42_codec.md R94. -/
def frameOf (id : Half) (cnt : Byte) (p : List Byte) : List Byte :=
  let n : Half := BitVec.ofNat 16 p.length
  let covered := [id.extractLsb' 0 8, id.extractLsb' 8 8, cnt, n.extractLsb' 0 8, n.extractLsb' 8 8] ++ p
  let c := crcValue covered
  covered ++ [c.extractLsb' 0 8, c.extractLsb' 8 8]

/-- Byte-wise XOR of three sequences: 40_crc.md R82. -/
def xor3 (x y z : List Byte) : List Byte :=
  List.zipWith (· ^^^ ·) (List.zipWith (· ^^^ ·) x y) z

/-- STATUS.RESULT's values: 10_state.md R19. -/
def resultNumber : DecodeResult → Nat
  | .none => 0
  | .ok => 1
  | .tooShort => 2
  | .lenMismatch => 3
  | .crcMismatch => 4

/-- FAULT.CAUSE's codes: 60_exceptions.md R113. -/
def causeNumber : FaultCause → Nat
  | .none => 0
  | .busError => 1
  | .fieldRange => 2
  | .illegalCmd => 3
  | .crcReuse => 4
  | .cursorWidth => 5
  | .cursorBounds => 6
  | .uninitRead => 7

/-- The five BUS_ERROR conditions: 20_memory.md R52, with the map of R39. -/
def busErrorCondition (isWrite : Bool) (size : AccessSize) (addr : Addr) : Prop :=
  let a := addr.toNat
  let inWindow := a < 0x40
  let inFbuf := 0x10000 ≤ a ∧ a ≤ 0x20005
  let inPbuf := 0x30000 ≤ a ∧ a ≤ 0x3FFFE
  (¬ inWindow ∧ ¬ inFbuf ∧ ¬ inPbuf) ∨
  (inWindow ∧ (size ≠ .word ∨ a % 4 ≠ 0)) ∨
  (0x30 ≤ a ∧ a ≤ 0x3F) ∨
  (isWrite = true ∧ (a = 0x04 ∨ a = 0x08 ∨ a = 0x0C ∨ a = 0x28 ∨ a = 0x2C)) ∨
  ((inFbuf ∨ inPbuf) ∧ size ≠ .byte)

/-- `i` is the command `c`, whose word is `w`, or the CMD write that carries it: 30_encoding.md R75. -/
def carries (i c : Instr) (w : Word) : Prop :=
  encodeInstr c = .command w ∧ (i = c ∨ i = .busWr .word 0x00000#20 w)

/-- Writing `w` to CMD faults ILLEGAL_CMD with `w`. -/
def illegalWord (s : State) (w : Word) : Prop :=
  exec (.busWr .word 0x00000#20 w) s = .next (raised s .illegalCmd w)

/-- Writing `w` to CMD runs `i`: 30_encoding.md R67, R72. -/
def runsAs (s : State) (w : Word) (i : Instr) : Prop :=
  encodeInstr i = .command w ∧ exec (.busWr .word 0x00000#20 w) s = exec i s

/-- Instructions one after another. -/
def execAll : List Instr → State → Host.Outcome State Fault Refusal
  | [], s => .next s
  | i :: is, s =>
    match exec i s with
    | .next t => execAll is t
    | .fault r => .fault r
    | .refused r => .refused r

/-- The count of a cursor command. -/
def cursorCount : Instr → Option Nat
  | .curRead n => some n.toNat
  | .curWrite n => some n.toNat
  | .crcInit => none
  | .crcAdd _ => none
  | .crcFinal => none
  | .encode => none
  | .decode => none
  | .busRd _ _ => none
  | .busWr _ _ _ => none

end Sys2Proof.Claims

open Sys2Proof Sys2Proof.Machine Sys2Proof.Claims

/-! ### Reset, the invariant, steps -/

/-- 70_reset_and_hazards.md R128: RESET in every state, faulted or not. -/
def Obligations.ResetLeavesTheStatedValues : Prop :=
  ∀ (s : State) (rest : List HostAction), s.host = .reset :: rest →
    ∃ t, step s = .next t ∧
      t.result = .none ∧ t.faultCause = .none ∧ t.faultInfo = 0#32 ∧ t.crcReg = 0xFFFF#16 ∧
      t.crcState = .accum ∧ t.statusWord = 0#32 ∧ t.off = 0#17 ∧
      t.id = none ∧ t.cnt = none ∧ t.len = none ∧ t.flen = none ∧ t.data = none ∧ t.crcVal = none ∧
      (∀ a, t.fbuf.read a = none) ∧ (∀ a, t.pbuf.read a = none) ∧
      exec (.busRd .word 0x00000#20) t = .next (got t 0#32)

/-- The invariant holds in every state a run starts from. -/
def Obligations.ResetStatesMeetInv : Prop :=
  ∀ actions : List HostAction, State.Inv { State.reset with host := actions }

/-- Every step keeps the invariant, from every state that meets it. -/
def Obligations.StepKeepsInv : Prop :=
  ∀ s t : State, s.Inv → step s = .next t → t.Inv

/-- What a step takes from the host's list is the model's convention (logs 1, 3, 6, 12). -/
def Obligations.StepTakesTheNextHostAction : Prop :=
  (∀ s : State, s.host = [] → step s = .next s) ∧
  (∀ (s : State) rest, s.host = .reset :: rest →
    step s = .next { State.reset with host := rest, reads := s.reads }) ∧
  (∀ (s : State) d rest i, s.host = .transaction d :: rest → decodeInstr (.transaction d) = .ok i →
    step s = exec i { s with host := rest }) ∧
  (∀ (s : State) d rest e, s.host = .transaction d :: rest →
    decodeInstr (.transaction d) = .error e → step s = .refused (.notATransaction d))

/-- A table word as the host's next action runs the instruction it decodes to, in the state itself. -/
def Obligations.StepRunsTheTableWord : Prop :=
  ∀ (s : State) (nbits w : Nat) (i : Instr), decodeTableWord nbits w = some i →
    step (s.withFetchWord nbits w) = exec i s

/-- "Every command terminates" (42_codec.md R103): every instruction answers a next state in every
state. A faulted block ignores a command, which is the CMD write that carries it (log 5). -/
def Obligations.EveryInstructionAnswersNext : Prop :=
  (∀ (i : Instr) (s : State), ∃ t, exec i s = .next t) ∧
  (∀ (i : Instr) (s : State), i.isCommand = true → s.faultCause ≠ .none → exec i s = .next s)

/-! ### Encoding -/

def Obligations.DecodeOfEncodeIsTheInstruction : Prop :=
  ∀ i : Instr, i.wellFormed = true → decodeInstr (encodeInstr i) = .ok i

def Obligations.EncodeOfDecodeIsTheWord : Prop :=
  ∀ (e : Encoding) (i : Instr), decodeInstr e = .ok i → encodeInstr i = e ∧ i.wellFormed = true

/-- Words written out from 30_encoding.md R67, R73 and 95_test_vectors.md Part 3. -/
def Obligations.WordsOfTheSpecDecode : Prop :=
  decodeTableWord 32 0x01000000 = some .crcInit ∧
  decodeTableWord 32 0x02000031 = some (.crcAdd 0x31) ∧
  decodeTableWord 32 0x03000000 = some .crcFinal ∧
  decodeTableWord 32 0x10000002 = some (.curRead 2) ∧
  decodeTableWord 32 0x11000005 = some (.curWrite 5) ∧
  decodeTableWord 32 0x20000000 = some .encode ∧
  decodeTableWord 32 0x21000000 = some .decode ∧
  decodeTableWord 64 0x0001000500000000 = some (.busRd .byte 0x10005) ∧
  decodeTableWord 64 0x80010006000000F0 = some (.busWr .byte 0x10006 0xF0) ∧
  decodeTableWord 64 0xC0000024000044A2 = some (.busWr .word 0x00024 0x44A2)

/-- 30_encoding.md R73. -/
def Obligations.DescriptorFieldsDecode : Prop :=
  ∀ d : Descriptor,
    let size : AccessSize := if d.getLsbD 62 then .word else .byte
    let addr : Addr := d.extractLsb' 32 20
    let data : Word := d.extractLsb' 0 32
    (d.extractLsb' 52 10 ≠ 0#10 → ∀ i, decodeInstr (.transaction d) ≠ .ok i) ∧
    (d.extractLsb' 52 10 = 0#10 → d.getLsbD 63 = false → data = 0#32 →
      decodeInstr (.transaction d) = .ok (.busRd size addr)) ∧
    (d.extractLsb' 52 10 = 0#10 → d.getLsbD 63 = true →
      (size = .byte → data.extractLsb' 8 24 = 0#24) →
      decodeInstr (.transaction d) = .ok (.busWr size addr data))

/-- 30_encoding.md R71. -/
def Obligations.CommandWordRunsOneCommandOrIsIllegal : Prop :=
  ∀ (w : Word) (s : State), s.faultCause = .none →
    (∃ i, i.isCommand = true ∧ encodeInstr i = .command w ∧
      exec (.busWr .word 0x00000#20 w) s = exec i s) ∨
    ((∀ i, encodeInstr i ≠ .command w) ∧ illegalWord s w)

/-- 30_encoding.md R69 and R70. -/
def Obligations.ReservedCommandWordsAreIllegal : Prop :=
  ∀ (w : Word) (s : State), s.faultCause = .none →
    let op := w.extractLsb' 24 8
    (op ∉ [0x01#8, 0x02#8, 0x03#8, 0x10#8, 0x11#8, 0x20#8, 0x21#8] → illegalWord s w) ∧
    (op ∈ [0x01#8, 0x03#8, 0x20#8, 0x21#8] → w.extractLsb' 0 24 ≠ 0#24 →
      illegalWord s w) ∧
    (op = 0x02#8 → w.extractLsb' 8 16 ≠ 0#16 → illegalWord s w) ∧
    (op ∈ [0x10#8, 0x11#8] → w.extractLsb' 3 21 ≠ 0#21 → illegalWord s w)

/-- 30_encoding.md R75. -/
def Obligations.MnemonicIsOneCmdWrite : Prop :=
  asmInstr .crcInit = asmWr .cmd 0x01000000#32 ∧
  (∀ b : Byte, asmInstr (.crcAdd b) = asmWr .cmd (0x02000000#32 ||| b.setWidth 32)) ∧
  asmInstr .crcFinal = asmWr .cmd 0x03000000#32 ∧
  (∀ n : BitVec 3, asmInstr (.curRead n) = asmWr .cmd (0x10000000#32 ||| n.setWidth 32)) ∧
  (∀ n : BitVec 3, asmInstr (.curWrite n) = asmWr .cmd (0x11000000#32 ||| n.setWidth 32)) ∧
  asmInstr .encode = asmWr .cmd 0x20000000#32 ∧
  asmInstr .decode = asmWr .cmd 0x21000000#32 ∧
  (∀ (i : Instr) (s : State) (rest : List HostAction), i.isCommand = true →
    s.host = asmInstr i :: rest → step s = exec i { s with host := rest })

/-! ### The CRC unit -/

/-- 40_crc.md R78. -/
def Obligations.CrcStepFollowsTheBitRule : Prop :=
  ∀ (r : Half) (b : Byte),
    crcStep r b =
      crcBitRule (crcBitRule (crcBitRule (crcBitRule (crcBitRule (crcBitRule (crcBitRule (crcBitRule r
        (b.getLsbD 7)) (b.getLsbD 6)) (b.getLsbD 5)) (b.getLsbD 4)) (b.getLsbD 3)) (b.getLsbD 2))
        (b.getLsbD 1)) (b.getLsbD 0)

/-- 40_crc.md R79. -/
def Obligations.CrcOfASequenceIsAFold : Prop :=
  crcOver [] = 0xFFFF#16 ∧ (∀ bs b, crcOver (bs ++ [b]) = crcStep (crcOver bs) b) ∧
  (∀ r, crcFinalize r = r ^^^ 0xFFFF#16) ∧ (∀ bs, crcValue bs = crcOver bs ^^^ 0xFFFF#16) ∧
  crcValue [] = 0x0000#16

/-- 40_crc.md R81 and the rows V-CRC-01 to V-CRC-10 of 95_test_vectors.md. -/
def Obligations.CrcKnownValues : Prop :=
  crcOver [0x00] = 0xE1F0 ∧ crcOver [0x01] = 0xF1D1 ∧ crcOver [0x80] = 0x7078 ∧
  crcOver [0xFF] = 0xFF00 ∧ crcOver [0x31] = 0xC782 ∧ crcOver [0x00, 0x00] = 0x1D0F ∧
  crcOver [0xFF, 0xFF] = 0x0000 ∧
  crcOver [0x31, 0x32, 0x33, 0x34, 0x35, 0x36, 0x37, 0x38, 0x39] = 0x29B1 ∧
  crcValue [0x31, 0x32, 0x33, 0x34, 0x35, 0x36, 0x37, 0x38, 0x39] = 0xD64E ∧
  crcOver [0x01, 0x00, 0x00, 0x00, 0x00, 0xA2, 0x44] = 0x3AF3 ∧
  crcOver [0xAB, 0x00, 0x2A, 0x01, 0x00, 0xFF, 0x40, 0xA5] = 0x5FC3

/-- 40_crc.md R82: CrcStep is affine over GF(2), and its consequence for sequences. -/
def Obligations.CrcIsAffine : Prop :=
  (∃ M : Half → Half, (∀ r q, M (r ^^^ q) = M r ^^^ M q) ∧
    ∀ b : Byte, ∃ c : Half, ∀ r, crcStep r b = M r ^^^ c) ∧
  ∀ x y z : List Byte, x.length = y.length → y.length = z.length →
    crcOver (xor3 x y z) = crcOver x ^^^ crcOver y ^^^ crcOver z

/-- 40_crc.md R83. -/
def Obligations.CrcInitStartsANewInstance : Prop :=
  ∀ s : State, s.faultCause = .none →
    runsAs s 0x01000000#32 .crcInit ∧
    exec .crcInit s = .next { s with crcReg := 0xFFFF#16, crcState := .accum } ∧
    (∀ t, exec .crcInit s = .next t → t.statusWord.getLsbD 4 = false) ∧
    (∀ w : Word, w.extractLsb' 24 8 = 0x01#8 → w.extractLsb' 0 24 ≠ 0#24 → illegalWord s w)

/-- 40_crc.md R84. -/
def Obligations.CrcAddMixesOneByte : Prop :=
  (∀ (s : State) (b : Byte), s.faultCause = .none →
    runsAs s (0x02000000#32 ||| b.setWidth 32) (.crcAdd b) ∧
    (s.crcState = .accum → exec (.crcAdd b) s = .next { s with crcReg := crcStep s.crcReg b }) ∧
    (s.crcState = .final →
      exec (.crcAdd b) s = .next (raised s .crcReuse (0x02000000#32 ||| b.setWidth 32))) ∧
    (∀ w : Word, w.extractLsb' 24 8 = 0x02#8 → w.extractLsb' 8 16 ≠ 0#16 → illegalWord s w)) ∧
  crcStep 0xFFFF#16 0x00#8 = 0xE1F0#16 ∧ crcStep 0xFFFF#16 0xFF#8 = 0xFF00#16 ∧
  crcStep 0xFFFF#16 0x31#8 = 0xC782#16

/-- 40_crc.md R85. -/
def Obligations.CrcFinalReadsOutTheInverse : Prop :=
  ∀ s : State, s.faultCause = .none →
    runsAs s 0x03000000#32 .crcFinal ∧
    (s.crcState = .accum →
      exec .crcFinal s = .next { s with crcVal := some (s.crcReg ^^^ 0xFFFF#16), crcState := .final } ∧
      (∀ t, exec .crcFinal s = .next t → t.statusWord.getLsbD 4 = true)) ∧
    (s.crcState = .final → exec .crcFinal s = .next (raised s .crcReuse 0x03000000#32)) ∧
    (∀ w : Word, w.extractLsb' 24 8 = 0x03#8 → w.extractLsb' 0 24 ≠ 0#24 → illegalWord s w)

/-! ### The host cursor -/

/-- 41_cursor.md R91, with R87's loop. -/
def Obligations.CurReadReadsLittleEndian : Prop :=
  ∀ (s : State) (n : BitVec 3), s.faultCause = .none →
    let w : Word := 0x10000000#32 ||| n.setWidth 32
    let k := n.toNat
    let o := s.off.toNat
    runsAs s w (.curRead n) ∧
    (¬ (1 ≤ k ∧ k ≤ 4) → exec (.curRead n) s = .next (raised s .cursorWidth w)) ∧
    (1 ≤ k ∧ k ≤ 4 →
      (s.flen = none → exec (.curRead n) s = .next (raised s .uninitRead 0x0000001C#32)) ∧
      ∀ l, s.flen = some l →
        (min l.toNat 65542 < o + k → exec (.curRead n) s = .next (raised s .cursorBounds w)) ∧
        (o + k ≤ min l.toNat 65542 →
          (∀ x, firstInvalid s.fbuf o (o + k) x →
            exec (.curRead n) s = .next (raised s .uninitRead (BitVec.ofNat 32 (0x10000 + x)))) ∧
          (∀ f : Nat → Byte, (∀ j, j < k → s.fbuf.read (o + j) = some (f j)) →
            exec (.curRead n) s =
              .next { s with data := some (leWord f k), off := BitVec.ofNat 17 (o + k) }))) ∧
    (∀ v : Word, v.extractLsb' 24 8 = 0x10#8 → v.extractLsb' 3 21 ≠ 0#21 → illegalWord s v)

/-- 41_cursor.md R92, with R88's bytes. -/
def Obligations.CurWriteStoresLittleEndian : Prop :=
  ∀ (s : State) (n : BitVec 3), s.faultCause = .none →
    let w : Word := 0x11000000#32 ||| n.setWidth 32
    let k := n.toNat
    let o := s.off.toNat
    runsAs s w (.curWrite n) ∧
    (¬ (1 ≤ k ∧ k ≤ 4) → exec (.curWrite n) s = .next (raised s .cursorWidth w)) ∧
    (1 ≤ k ∧ k ≤ 4 →
      (s.data = none → exec (.curWrite n) s = .next (raised s .uninitRead 0x00000024#32)) ∧
      (s.data ≠ none → s.flen = none →
        exec (.curWrite n) s = .next (raised s .uninitRead 0x0000001C#32)) ∧
      ∀ v l, s.data = some v → s.flen = some l →
        (min l.toNat 65542 < o + k → exec (.curWrite n) s = .next (raised s .cursorBounds w)) ∧
        (o + k ≤ min l.toNat 65542 → ∃ m, storedAt s.fbuf m o (leList k v) ∧
          exec (.curWrite n) s = .next { s with fbuf := m, off := BitVec.ofNat 17 (o + k) })) ∧
    (∀ v : Word, v.extractLsb' 24 8 = 0x11#8 → v.extractLsb' 3 21 ≠ 0#21 → illegalWord s v)

/-- 41_cursor.md R93, first law: cur.wr n; wr OFF, o; cur.rd n. -/
def Obligations.CursorReadsBackWhatItWrote : Prop :=
  ∀ (s : State) (n : BitVec 3) (v : Word) (l : Extent), s.faultCause = .none →
    1 ≤ n.toNat → n.toNat ≤ 4 → s.data = some v → s.flen = some l →
    s.off.toNat + n.toNat ≤ min l.toNat 65542 →
    ∃ t, execAll [.curWrite n, .busWr .word 0x00020#20 (s.off.setWidth 32), .curRead n] s = .next t ∧
      t.faultCause = .none ∧ t.off.toNat = s.off.toNat + n.toNat ∧
      t.data = some (BitVec.ofNat 32 (v.toNat % 2 ^ (8 * n.toNat)))

/-- 41_cursor.md R93, second law: the offsets of in-bounds cursor commands add up. -/
def Obligations.CursorOffsetsAddUp : Prop :=
  ∀ (is : List Instr) (s t : State), (∀ i ∈ is, (cursorCount i).isSome = true) →
    s.faultCause = .none → execAll is s = .next t → t.faultCause = .none →
    t.off.toNat = s.off.toNat + (is.filterMap cursorCount).sum

/-! ### The codec -/

/-- 42_codec.md R97, with the frame of R94. -/
def Obligations.EncodeBuildsTheFrame : Prop :=
  ∀ s : State, s.faultCause = .none →
    runsAs s 0x20000000#32 .encode ∧
    (s.id = none → exec .encode s = .next (raised s .uninitRead 0x00000010#32)) ∧
    (s.id ≠ none → s.cnt = none → exec .encode s = .next (raised s .uninitRead 0x00000014#32)) ∧
    (s.id ≠ none → s.cnt ≠ none → s.len = none →
      exec .encode s = .next (raised s .uninitRead 0x00000018#32)) ∧
    (∀ id cnt n, s.id = some id → s.cnt = some cnt → s.len = some n →
      (∀ x, firstInvalid s.pbuf 0 n.toNat x →
        exec .encode s = .next (raised s .uninitRead (BitVec.ofNat 32 (0x30000 + x)))) ∧
      (∀ p : List Byte, p.length = n.toNat → bytesAt s.pbuf 0 p →
        ∃ m, storedAt s.fbuf m 0 (frameOf id cnt p) ∧
          exec .encode s =
            .next { s with flen := some (BitVec.ofNat 17 (7 + n.toNat)), fbuf := m })) ∧
    (∀ w : Word, w.extractLsb' 24 8 = 0x20#8 → w.extractLsb' 0 24 ≠ 0#24 → illegalWord s w)

/-- 42_codec.md R106. -/
def Obligations.EncodeSetsFlenToLenPlusSeven : Prop :=
  ∀ s t : State, s.faultCause = .none → exec .encode s = .next t → t.faultCause = .none →
    ∃ n l, t.len = some n ∧ t.flen = some l ∧ l.toNat = n.toNat + 7

/-- 42_codec.md R110. -/
def Obligations.EncodeIdIsLittleEndian : Prop :=
  ∀ s t : State, s.faultCause = .none → s.id = some 0x1234#16 → exec .encode s = .next t →
    t.faultCause = .none → t.fbuf.read 0 = some 0x34#8 ∧ t.fbuf.read 1 = some 0x12#8

/-- 42_codec.md R98. -/
def Obligations.DecodeParsesTheFrame : Prop :=
  ∀ s : State, s.faultCause = .none →
    runsAs s 0x21000000#32 .decode ∧
    (s.flen = none → exec .decode s = .next (raised s .uninitRead 0x0000001C#32)) ∧
    (∀ l, s.flen = some l →
      (l.toNat < 7 → exec .decode s = .next { s with result := .tooShort }) ∧
      (7 ≤ l.toNat →
        (∀ x, firstInvalid s.fbuf 0 5 x →
          exec .decode s = .next (raised s .uninitRead (BitVec.ofNat 32 (0x10000 + x)))) ∧
        (∀ h : List Byte, h.length = 5 → bytesAt s.fbuf 0 h →
          let dl := (h.getD 3 0).toNat + 256 * (h.getD 4 0).toNat
          (dl ≠ l.toNat - 7 → exec .decode s = .next { s with result := .lenMismatch }) ∧
          (dl = l.toNat - 7 →
            (∀ x, firstInvalid s.fbuf 5 (7 + dl) x →
              exec .decode s = .next (raised s .uninitRead (BitVec.ofNat 32 (0x10000 + x)))) ∧
            (∀ f : List Byte, f.length = 7 + dl → bytesAt s.fbuf 0 f →
              let c := crcValue (f.take (5 + dl))
              let t := (f.getD (5 + dl) 0).toNat + 256 * (f.getD (6 + dl) 0).toNat
              (c.toNat ≠ t → exec .decode s = .next { s with result := .crcMismatch }) ∧
              (c.toNat = t → ∃ m, storedAt s.pbuf m 0 ((f.drop 5).take dl) ∧
                exec .decode s = .next { s with
                  id := some (f.getD 1 0 ++ f.getD 0 0), cnt := some (f.getD 2 0),
                  len := some (f.getD 4 0 ++ f.getD 3 0), pbuf := m, result := .ok })))))) ∧
    (∀ w : Word, w.extractLsb' 24 8 = 0x21#8 → w.extractLsb' 0 24 ≠ 0#24 → illegalWord s w)

/-- 42_codec.md R99. -/
def Obligations.FailedDecodeWritesOnlyResult : Prop :=
  ∀ s t : State, s.faultCause = .none → exec .decode s = .next t → t.faultCause = .none →
    t.result ≠ .none ∧ (t.result ≠ .ok → t = { s with result := t.result })

/-- 42_codec.md R102, its last sentence. -/
def Obligations.DecodeDependsOnlyOnTheFrame : Prop :=
  ∀ s s' t t' : State, s.faultCause = .none → s'.faultCause = .none → s.flen = s'.flen →
    (∀ l, s.flen = some l → ∀ x, x < min l.toNat 65542 → s.fbuf.read x = s'.fbuf.read x) →
    exec .decode s = .next t → exec .decode s' = .next t' →
    t.faultCause = t'.faultCause ∧ (t.faultCause ≠ .none → t.faultInfo = t'.faultInfo) ∧
    (t.faultCause = .none → t.result = t'.result) ∧
    (t.faultCause = .none → t.result = .ok →
      t.id = t'.id ∧ t.cnt = t'.cnt ∧ t.len = t'.len ∧
      ∀ n, t.len = some n → ∀ x, x < n.toNat → t.pbuf.read x = t'.pbuf.read x)

/-- 42_codec.md R104. -/
def Obligations.OversizedFlenIsALengthMismatch : Prop :=
  ∀ (s : State) (l : Extent), s.faultCause = .none → s.flen = some l → 65543 ≤ l.toNat →
    (∀ x, x < 5 → s.fbuf.read x ≠ none) → exec .decode s = .next { s with result := .lenMismatch }

/-- 42_codec.md R105: encode; decode. -/
def Obligations.DecodeOfEncodedFrameDelivers : Prop :=
  ∀ (s : State) (id : Half) (cnt : Byte) (p : List Byte), s.faultCause = .none →
    p.length ≤ 65535 → s.id = some id → s.cnt = some cnt →
    s.len = some (BitVec.ofNat 16 p.length) → bytesAt s.pbuf 0 p →
    ∃ t, execAll [.encode, .decode] s = .next t ∧ t.faultCause = .none ∧ t.result = .ok ∧
      t.id = some id ∧ t.cnt = some cnt ∧ t.len = some (BitVec.ofNat 16 p.length) ∧ bytesAt t.pbuf 0 p

/-- 42_codec.md R107, its law on one changed byte. -/
def Obligations.EveryChangedByteIsDetected : Prop :=
  ∀ (s : State) (id : Half) (cnt : Byte) (p : List Byte) (j : Nat) (b : Byte),
    s.faultCause = .none → p.length ≤ 65535 → j < p.length + 7 →
    (frameOf id cnt p)[j]? ≠ some b → s.flen = some (BitVec.ofNat 17 (p.length + 7)) →
    bytesAt s.fbuf 0 ((frameOf id cnt p).set j b) →
    exec .decode s =
      .next { s with result := if j = 3 ∨ j = 4 then .lenMismatch else .crcMismatch }

/-- 42_codec.md R108. -/
def Obligations.ChangedLengthFieldIsALengthMismatch : Prop :=
  ∀ (s : State) (id : Half) (cnt : Byte) (p : List Byte) (x y : Byte),
    s.faultCause = .none → p.length ≤ 65535 →
    ((frameOf id cnt p)[3]? ≠ some x ∨ (frameOf id cnt p)[4]? ≠ some y) →
    s.flen = some (BitVec.ofNat 17 (p.length + 7)) →
    bytesAt s.fbuf 0 (((frameOf id cnt p).set 3 x).set 4 y) →
    exec .decode s = .next { s with result := .lenMismatch }

/-- 42_codec.md R109. -/
def Obligations.TruncatedFrameIsRejected : Prop :=
  ∀ (s : State) (id : Half) (cnt : Byte) (p : List Byte) (k : Nat),
    s.faultCause = .none → p.length ≤ 65535 → k < p.length + 7 →
    bytesAt s.fbuf 0 (frameOf id cnt p) → s.flen = some (BitVec.ofNat 17 k) →
    exec .decode s = .next { s with result := if k < 7 then .tooShort else .lenMismatch }

/-! ### The bus -/

/-- 20_memory.md R52. -/
def Obligations.BusErrorExactlyOnItsConditions : Prop :=
  ∀ (s : State) (size : AccessSize) (addr : Addr) (w : Word), s.faultCause = .none →
    (busErrorCondition false size addr →
      exec (.busRd size addr) s = .next (raised s .busError (addr.setWidth 32))) ∧
    (¬ busErrorCondition false size addr →
      ∃ t, exec (.busRd size addr) s = .next t ∧ t.faultCause ≠ .busError) ∧
    (busErrorCondition true size addr →
      exec (.busWr size addr w) s = .next (raised s .busError (addr.setWidth 32))) ∧
    (¬ busErrorCondition true size addr →
      ∃ t, exec (.busWr size addr w) s = .next t ∧ t.faultCause ≠ .busError) ∧
    exec (.busRd .word 0x00000#20) s = .next (got s 0#32)

/-- 20_memory.md R54. STATUS, FAULT and FAULTINFO answer a faulted block too. -/
def Obligations.RegisterReadValues : Prop :=
  ∀ s : State,
    exec (.busRd .word 0x00000#20) s = .next (got s 0#32) ∧
    exec (.busRd .word 0x00004#20) s = .next (got s (BitVec.ofNat 32
      ((if s.crcState = .final then 16 else 0) + (if s.faultCause = .none then 0 else 8) +
        resultNumber s.result))) ∧
    exec (.busRd .word 0x00008#20) s = .next (got s (BitVec.ofNat 32 (causeNumber s.faultCause))) ∧
    exec (.busRd .word 0x0000C#20) s = .next (got s s.faultInfo) ∧
    (s.faultCause = .none →
    (∀ v, s.id = some v → exec (.busRd .word 0x00010#20) s = .next (got s (v.setWidth 32))) ∧
    (s.id = none → exec (.busRd .word 0x00010#20) s = .next (raised s .uninitRead 0x10#32)) ∧
    (∀ v, s.cnt = some v → exec (.busRd .word 0x00014#20) s = .next (got s (v.setWidth 32))) ∧
    (s.cnt = none → exec (.busRd .word 0x00014#20) s = .next (raised s .uninitRead 0x14#32)) ∧
    (∀ v, s.len = some v → exec (.busRd .word 0x00018#20) s = .next (got s (v.setWidth 32))) ∧
    (s.len = none → exec (.busRd .word 0x00018#20) s = .next (raised s .uninitRead 0x18#32)) ∧
    (∀ v, s.flen = some v → exec (.busRd .word 0x0001C#20) s = .next (got s (v.setWidth 32))) ∧
    (s.flen = none → exec (.busRd .word 0x0001C#20) s = .next (raised s .uninitRead 0x1C#32)) ∧
    exec (.busRd .word 0x00020#20) s = .next (got s (s.off.setWidth 32)) ∧
    (∀ v, s.data = some v → exec (.busRd .word 0x00024#20) s = .next (got s v)) ∧
    (s.data = none → exec (.busRd .word 0x00024#20) s = .next (raised s .uninitRead 0x24#32)) ∧
    exec (.busRd .word 0x00028#20) s = .next (got s (s.crcReg.setWidth 32)) ∧
    (∀ v, s.crcVal = some v → exec (.busRd .word 0x0002C#20) s = .next (got s (v.setWidth 32))) ∧
    (s.crcVal = none → exec (.busRd .word 0x0002C#20) s = .next (raised s .uninitRead 0x2C#32)))

/-- 20_memory.md R55, its buffer part. -/
def Obligations.BufferByteReads : Prop :=
  ∀ (s : State) (addr : Addr), s.faultCause = .none →
    (0x10000 ≤ addr.toNat → addr.toNat ≤ 0x20005 →
      (∀ b, s.fbuf.read (addr.toNat - 0x10000) = some b →
        exec (.busRd .byte addr) s = .next (got s (b.setWidth 32))) ∧
      (s.fbuf.read (addr.toNat - 0x10000) = none →
        exec (.busRd .byte addr) s = .next (raised s .uninitRead (addr.setWidth 32)))) ∧
    (0x30000 ≤ addr.toNat → addr.toNat ≤ 0x3FFFE →
      (∀ b, s.pbuf.read (addr.toNat - 0x30000) = some b →
        exec (.busRd .byte addr) s = .next (got s (b.setWidth 32))) ∧
      (s.pbuf.read (addr.toNat - 0x30000) = none →
        exec (.busRd .byte addr) s = .next (raised s .uninitRead (addr.setWidth 32))))

/-- 20_memory.md R56. -/
def Obligations.BusWriteEffects : Prop :=
  ∀ (s : State) (w : Word),
    (∀ (size : AccessSize) (addr : Addr), s.faultCause ≠ .none →
      exec (.busWr size addr w) s = .next s) ∧
    (s.faultCause = .none →
      (∀ (size : AccessSize) (addr : Addr), busErrorCondition true size addr →
        exec (.busWr size addr w) s = .next (raised s .busError (addr.setWidth 32))) ∧
      (∀ i, decodeInstr (.command w) = .ok i → exec (.busWr .word 0x00000#20 w) s = exec i s) ∧
      (∀ e, decodeInstr (.command w) = .error e → illegalWord s w) ∧
      (w.extractLsb' 16 16 = 0#16 →
        exec (.busWr .word 0x00010#20 w) s = .next { s with id := some (w.extractLsb' 0 16) }) ∧
      (w.extractLsb' 16 16 ≠ 0#16 →
        exec (.busWr .word 0x00010#20 w) s = .next (raised s .fieldRange 0x10#32)) ∧
      (w.extractLsb' 8 24 = 0#24 →
        exec (.busWr .word 0x00014#20 w) s = .next { s with cnt := some (w.extractLsb' 0 8) }) ∧
      (w.extractLsb' 8 24 ≠ 0#24 →
        exec (.busWr .word 0x00014#20 w) s = .next (raised s .fieldRange 0x14#32)) ∧
      (w.extractLsb' 16 16 = 0#16 →
        exec (.busWr .word 0x00018#20 w) s = .next { s with len := some (w.extractLsb' 0 16) }) ∧
      (w.extractLsb' 16 16 ≠ 0#16 →
        exec (.busWr .word 0x00018#20 w) s = .next (raised s .fieldRange 0x18#32)) ∧
      (w.extractLsb' 17 15 = 0#15 →
        exec (.busWr .word 0x0001C#20 w) s = .next { s with flen := some (w.extractLsb' 0 17) }) ∧
      (w.extractLsb' 17 15 ≠ 0#15 →
        exec (.busWr .word 0x0001C#20 w) s = .next (raised s .fieldRange 0x1C#32)) ∧
      (w.extractLsb' 17 15 = 0#15 →
        exec (.busWr .word 0x00020#20 w) s = .next { s with off := w.extractLsb' 0 17 }) ∧
      (w.extractLsb' 17 15 ≠ 0#15 →
        exec (.busWr .word 0x00020#20 w) s = .next (raised s .fieldRange 0x20#32)) ∧
      exec (.busWr .word 0x00024#20 w) s = .next { s with data := some w } ∧
      (∀ addr : Addr, 0x10000 ≤ addr.toNat → addr.toNat ≤ 0x20005 →
        ∃ m, storedAt s.fbuf m (addr.toNat - 0x10000) [w.extractLsb' 0 8] ∧
          exec (.busWr .byte addr w) s = .next { s with fbuf := m }) ∧
      (∀ addr : Addr, 0x30000 ≤ addr.toNat → addr.toNat ≤ 0x3FFFE →
        ∃ m, storedAt s.pbuf m (addr.toNat - 0x30000) [w.extractLsb' 0 8] ∧
          exec (.busWr .byte addr w) s = .next { s with pbuf := m }))

/-- 20_memory.md R50: a read changes nothing but the fault record, a read that returned a value
returns it again, and a write that is not to CMD changes nothing when repeated. -/
def Obligations.ReadsAndPlainWritesRepeat : Prop :=
  (∀ (size : AccessSize) (addr : Addr) (s t u : State), exec (.busRd size addr) s = .next t →
    exec (.busRd size addr) t = .next u →
    (∃ v, t = got s v ∧ u = got t v) ∨
      (s.faultCause = .none ∧ t.faultCause ≠ .none ∧ t = raised s t.faultCause t.faultInfo)) ∧
  (∀ (size : AccessSize) (addr : Addr) (w : Word) (s t : State),
    (size ≠ .word ∨ addr ≠ 0x00000#20) → exec (.busWr size addr w) s = .next t →
    exec (.busWr size addr w) t = .next t)

/-- 20_memory.md R57 for one buffer byte: a read returns the latest write, and other bytes keep. -/
def Obligations.BufferReadAfterWrite : Prop :=
  ∀ (s : State) (addr : Addr) (b : Byte), s.faultCause = .none →
    ((0x10000 ≤ addr.toNat ∧ addr.toNat ≤ 0x20005) ∨ (0x30000 ≤ addr.toNat ∧ addr.toNat ≤ 0x3FFFE)) →
    ∃ t, exec (.busWr .byte addr (b.setWidth 32)) s = .next t ∧
      exec (.busRd .byte addr) t = .next (got t (b.setWidth 32)) ∧
      ∀ other v, other ≠ addr → exec (.busRd .byte other) s = .next (got s v) →
        exec (.busRd .byte other) t = .next (got t v)

/-! ### STATUS, faults and whole-machine rules -/

/-- 10_state.md R18, R20 and R21. -/
def Obligations.StatusFields : Prop :=
  (∀ s : State,
    s.statusWord.extractLsb' 0 3 = BitVec.ofNat 3 (resultNumber s.result) ∧
    (s.statusWord.getLsbD 3 = true ↔ s.faultCause ≠ .none) ∧
    (s.statusWord.getLsbD 4 = true ↔ s.crcState = .final) ∧
    s.statusWord.extractLsb' 5 27 = 0#27 ∧
    (∀ w, s.faultCause = .none →
      exec (.busWr .word 0x00004#20 w) s = .next (raised s .busError 0x04#32))) ∧
  State.reset.statusWord = 0#32

/-- 60_exceptions.md R116. -/
def Obligations.FaultedBlockAnswersOnlyItsStatus : Prop :=
  (∀ s : State, s.faultCause ≠ .none →
    exec (.busRd .word 0x00004#20) s = .next (got s s.statusWord) ∧
    exec (.busRd .word 0x00008#20) s = .next (got s (BitVec.ofNat 32 (causeNumber s.faultCause))) ∧
    exec (.busRd .word 0x0000C#20) s = .next (got s s.faultInfo) ∧
    (∀ size addr, ¬ (size = .word ∧ addr ∈ [0x00004#20, 0x00008#20, 0x0000C#20]) →
      exec (.busRd size addr) s = .next (got s 0#32)) ∧
    (∀ size addr w, exec (.busWr size addr w) s = .next s) ∧
    (∀ t, step s = .next t → (∀ rest, s.host ≠ .reset :: rest) →
      t.faultCause = s.faultCause ∧ t.faultInfo = s.faultInfo)) ∧
  (∀ actions start t, runOf actions start = .next t → t.faultCause ≠ .none →
    runFaulted actions start)

/-- 60_exceptions.md R115. -/
def Obligations.FaultsArePrecise : Prop :=
  ∀ (i : Instr) (s t : State), exec i s = .next t →
    (s.faultCause = .none → t.faultCause ≠ .none → t = raised s t.faultCause t.faultInfo) ∧
    (s.faultCause ≠ .none → t.faultCause = s.faultCause ∧ t.faultInfo = s.faultInfo)

/-- 60_exceptions.md R114, with the conditions of R113 that name each cause. -/
def Obligations.FaultCausesAndInformation : Prop :=
  (∀ c : FaultCause, c.code.toNat = causeNumber c ∧ c.code.toNat ≤ 7) ∧
  ∀ (i : Instr) (s t : State), s.faultCause = .none → exec i s = .next t →
    (t.faultCause = .none → t.faultInfo = s.faultInfo) ∧
    (t.faultCause = .busError → ∃ size addr,
      (i = .busRd size addr ∧ busErrorCondition false size addr ∨
        ∃ w, i = .busWr size addr w ∧ busErrorCondition true size addr) ∧
      t.faultInfo = addr.setWidth 32) ∧
    (t.faultCause = .fieldRange → ∃ addr w, i = .busWr .word addr w ∧
      ((addr = 0x10#20 ∧ 2 ^ 16 ≤ w.toNat) ∨ (addr = 0x14#20 ∧ 2 ^ 8 ≤ w.toNat) ∨
        (addr = 0x18#20 ∧ 2 ^ 16 ≤ w.toNat) ∨ (addr = 0x1C#20 ∧ 2 ^ 17 ≤ w.toNat) ∨
        (addr = 0x20#20 ∧ 2 ^ 17 ≤ w.toNat)) ∧
      t.faultInfo = addr.setWidth 32) ∧
    (t.faultCause = .illegalCmd → ∃ w, i = .busWr .word 0x00000#20 w ∧
      (∀ c, encodeInstr c ≠ .command w) ∧ t.faultInfo = w) ∧
    (t.faultCause = .crcReuse → s.crcState = .final ∧
      ∃ c w, carries i c w ∧ (c = .crcFinal ∨ ∃ b, c = .crcAdd b) ∧ t.faultInfo = w) ∧
    (t.faultCause = .cursorWidth → ∃ c w n, carries i c w ∧ (c = .curRead n ∨ c = .curWrite n) ∧
      n.toNat ∉ [1, 2, 3, 4] ∧ t.faultInfo = w) ∧
    (t.faultCause = .cursorBounds → ∃ c w n l, carries i c w ∧ (c = .curRead n ∨ c = .curWrite n) ∧
      s.flen = some l ∧ min l.toNat 65542 < s.off.toNat + n.toNat ∧ t.faultInfo = w) ∧
    (t.faultCause = .uninitRead →
      ((∃ size addr, i = .busRd size addr) ∨
        ∃ c w, carries i c w ∧
          (c = .encode ∨ c = .decode ∨ ∃ n, c = .curRead n ∨ c = .curWrite n)) ∧
      ((s.id = none ∧ t.faultInfo = 0x10#32) ∨ (s.cnt = none ∧ t.faultInfo = 0x14#32) ∨
        (s.len = none ∧ t.faultInfo = 0x18#32) ∨ (s.flen = none ∧ t.faultInfo = 0x1C#32) ∨
        (s.data = none ∧ t.faultInfo = 0x24#32) ∨ (s.crcVal = none ∧ t.faultInfo = 0x2C#32) ∨
        (∃ x, x < 65542 ∧ s.fbuf.read x = none ∧ t.faultInfo = BitVec.ofNat 32 (0x10000 + x)) ∨
        (∃ x, x < 65535 ∧ s.pbuf.read x = none ∧ t.faultInfo = BitVec.ofNat 32 (0x30000 + x))))

/-- 60_exceptions.md R112. -/
def Obligations.DecodeFailuresAndFaultsNeverMix : Prop :=
  ∀ (i : Instr) (s t : State), exec i s = .next t →
    (t.result ≠ s.result → t.faultCause = s.faultCause ∧ t.faultInfo = s.faultInfo) ∧
    (t.faultCause ≠ s.faultCause → t.result = s.result)

/-- 10_state.md R19. -/
def Obligations.OnlyDecodeWritesResult : Prop :=
  (∀ r : DecodeResult, r.code.toNat = resultNumber r ∧ r.code.toNat ≤ 4) ∧
  (∀ (i : Instr) (s t : State), exec i s = .next t → t.result ≠ s.result →
    carries i .decode 0x21000000#32 ∧ t.result ≠ .none) ∧
  (∀ s t : State, exec .decode s = .next t → t.faultCause ≠ .none → t.result = s.result)

/-- 10_state.md R14, its last paragraph. -/
def Obligations.OnlyCrcCommandsWriteTheCrcUnit : Prop :=
  ∀ (i : Instr) (s t : State), exec i s = .next t →
    (t.crcReg ≠ s.crcReg → ∃ c w, carries i c w ∧ (c = .crcInit ∨ ∃ b, c = .crcAdd b)) ∧
    (t.crcState ≠ s.crcState → ∃ c w, carries i c w ∧ (c = .crcInit ∨ c = .crcFinal)) ∧
    (t.crcVal ≠ s.crcVal → ∃ w, carries i .crcFinal w)

/-- 10_state.md R33: nothing clears a valid bit except RESET. -/
def Obligations.OnlyResetClearsAValidBit : Prop :=
  ∀ s t : State, step s = .next t → (∀ rest, s.host ≠ .reset :: rest) →
    (s.id ≠ none → t.id ≠ none) ∧ (s.cnt ≠ none → t.cnt ≠ none) ∧ (s.len ≠ none → t.len ≠ none) ∧
    (s.flen ≠ none → t.flen ≠ none) ∧ (s.data ≠ none → t.data ≠ none) ∧
    (s.crcVal ≠ none → t.crcVal ≠ none) ∧
    (∀ a, s.fbuf.read a ≠ none → t.fbuf.read a ≠ none) ∧
    (∀ a, s.pbuf.read a ≠ none → t.pbuf.read a ≠ none)

/-- What each instruction leaves unchanged in every next state, with or without a fault: the rules
R83 to R85, R91, R92, R97, R98, R55 and R56. A BUS_WR to CMD is the command it carries (R75). -/
def Obligations.InstructionFrames : Prop :=
  ∀ (s t : State),
    (∀ i, (i = .crcInit ∨ i = .crcFinal ∨ ∃ b, i = .crcAdd b) → exec i s = .next t →
      t = { s with crcReg := t.crcReg, crcState := t.crcState, crcVal := t.crcVal,
                   faultCause := t.faultCause, faultInfo := t.faultInfo }) ∧
    (∀ n, exec (.curRead n) s = .next t →
      t = { s with data := t.data, off := t.off,
                   faultCause := t.faultCause, faultInfo := t.faultInfo }) ∧
    (∀ n, exec (.curWrite n) s = .next t →
      t = { s with fbuf := t.fbuf, off := t.off,
                   faultCause := t.faultCause, faultInfo := t.faultInfo } ∧
      ∀ x, x < s.off.toNat ∨ s.off.toNat + n.toNat ≤ x → t.fbuf.read x = s.fbuf.read x) ∧
    (exec .encode s = .next t →
      t = { s with fbuf := t.fbuf, flen := t.flen,
                   faultCause := t.faultCause, faultInfo := t.faultInfo } ∧
      ∀ n, s.len = some n → ∀ x, 7 + n.toNat ≤ x → t.fbuf.read x = s.fbuf.read x) ∧
    (exec .decode s = .next t →
      t = { s with id := t.id, cnt := t.cnt, len := t.len, pbuf := t.pbuf, result := t.result,
                   faultCause := t.faultCause, faultInfo := t.faultInfo } ∧
      ∀ n, t.len = some n → ∀ x, n.toNat ≤ x → t.pbuf.read x = s.pbuf.read x) ∧
    (∀ size addr, exec (.busRd size addr) s = .next t →
      t = { s with reads := t.reads, faultCause := t.faultCause, faultInfo := t.faultInfo }) ∧
    (∀ size addr w, (size ≠ .word ∨ addr ≠ 0x00000#20) → exec (.busWr size addr w) s = .next t →
      t = { s with id := t.id, cnt := t.cnt, len := t.len, flen := t.flen, off := t.off,
                   data := t.data, fbuf := t.fbuf, pbuf := t.pbuf,
                   faultCause := t.faultCause, faultInfo := t.faultInfo } ∧
      (addr ≠ 0x10#20 → t.id = s.id) ∧ (addr ≠ 0x14#20 → t.cnt = s.cnt) ∧
      (addr ≠ 0x18#20 → t.len = s.len) ∧ (addr ≠ 0x1C#20 → t.flen = s.flen) ∧
      (addr ≠ 0x20#20 → t.off = s.off) ∧ (addr ≠ 0x24#20 → t.data = s.data) ∧
      (∀ x, 0x10000 + x ≠ addr.toNat → t.fbuf.read x = s.fbuf.read x) ∧
      (∀ x, 0x30000 + x ≠ addr.toNat → t.pbuf.read x = s.pbuf.read x))
end

