-- ==== Sys2Proof/Laws/Decode.lean ====
section
/-! SUPPORT. The fields of the two formats: taking a word apart and putting it together. -/

namespace Sys2Proof

/-! ### The CMD format -/

theorem cmdWord_getLsbD (op : BitVec 8) (arg : BitVec 24) (i : Nat) :
    (cmdWord op arg).getLsbD i = if i < 24 then arg.getLsbD i else op.getLsbD (i - 24) :=
  BitVec.getLsbD_append

@[simp] theorem opField_cmdWord (op : BitVec 8) (arg : BitVec 24) : opField (cmdWord op arg) = op := by
  apply BitVec.eq_of_getLsbD_eq
  intro i hi
  simp only [opField, BitVec.getLsbD_extractLsb', cmdWord_getLsbD, hi, decide_true, Bool.true_and,
    show ¬ 24 + i < 24 by omega, show 24 + i - 24 = i by omega, if_false]

@[simp] theorem argField_cmdWord (op : BitVec 8) (arg : BitVec 24) :
    argField (cmdWord op arg) = arg := by
  apply BitVec.eq_of_getLsbD_eq
  intro i hi
  simp only [argField, BitVec.getLsbD_extractLsb', cmdWord_getLsbD, hi, decide_true, Bool.true_and,
    Nat.zero_add, if_true]

/-- A command word is its OP and its ARG (30_encoding.md R65). -/
theorem cmdWord_fields (w : Word) : cmdWord (opField w) (argField w) = w := by
  apply BitVec.eq_of_getLsbD_eq
  intro i hi
  simp only [cmdWord_getLsbD, opField, argField, BitVec.getLsbD_extractLsb', Nat.zero_add]
  by_cases h : i < 24
  · simp only [h, if_true, decide_true, Bool.true_and]
  · simp only [h, if_false, show i - 24 < 8 by omega, decide_true, Bool.true_and,
      show 24 + (i - 24) = i by omega]

/-- The low ARG bits of a word are the word's own low bits. -/
theorem extractLsb'_cmdWord {n : Nat} (hn : n ≤ 24) (op : BitVec 8) (arg : BitVec 24) :
    (cmdWord op arg).extractLsb' 0 n = arg.setWidth n := by
  apply BitVec.eq_of_getLsbD_eq
  intro i hi
  simp only [BitVec.getLsbD_extractLsb', cmdWord_getLsbD, BitVec.getLsbD_setWidth, hi, decide_true,
    Bool.true_and, Nat.zero_add, show i < 24 by omega, if_true]

theorem withZeroArgFrom_eq_ok {lo : Nat} {w : Word} {i j : Instr} :
    withZeroArgFrom lo w i = .ok j ↔ argField w >>> lo = 0#24 ∧ i = j := by
  unfold withZeroArgFrom; split <;> simp [*]

/-- ARG bits from `n` up are zero exactly when ARG is its own low `n` bits. -/
theorem argField_shift_eq_zero {n : Nat} (arg : BitVec 24) :
    arg >>> n = 0#24 ↔ (arg.setWidth n).setWidth 24 = arg := by
  constructor
  · intro h
    apply BitVec.eq_of_getLsbD_eq
    intro i hi
    simp only [BitVec.getLsbD_setWidth, hi, decide_true, Bool.true_and]
    by_cases hlt : i < n
    · simp only [hlt, decide_true, Bool.true_and]
    · have := congrArg (fun v => BitVec.getLsbD v (i - n)) h
      simp only [BitVec.getLsbD_ushiftRight, BitVec.getLsbD_zero,
        show n + (i - n) = i by omega] at this
      simp only [hlt, decide_false, Bool.false_and, this]
  · intro h
    apply BitVec.eq_of_getLsbD_eq
    intro i hi
    rw [← h]
    simp

/-- Only a command decodes from a command word (30_encoding.md R72). -/
theorem decodeCmd_isCommand {w : Word} {i : Instr} (h : decodeCmd w = .ok i) :
    i.isCommand = true := by
  unfold decodeCmd at h
  repeat' split at h
  all_goals first
    | (obtain ⟨-, rfl⟩ := withZeroArgFrom_eq_ok.mp h; rfl)
    | cases h

/-- Only a host transaction decodes from a descriptor (30_encoding.md R73). -/
theorem decodeBus_not_isCommand {d : Descriptor} {i : Instr} (h : decodeBus d = .ok i) :
    i.isCommand = false := by
  unfold decodeBus at h
  repeat' split at h
  all_goals first
    | cases h; rfl
    | cases h

/-! ### The BUS format -/

variable (d : BitVec 1) (size : AccessSize) (addr : Addr) (data : Word)

theorem busDescriptor_getLsbD (i : Nat) :
    (busDescriptor d size addr data).getLsbD i =
      if i < 32 then data.getLsbD i
      else if i < 52 then addr.getLsbD (i - 32)
      else if i < 62 then false
      else if i < 63 then (sizeBit size).getLsbD (i - 62)
      else d.getLsbD (i - 63) := by
  have e1 : (busDescriptor d size addr data).getLsbD i = if i < 32 then data.getLsbD i
      else (d ++ sizeBit size ++ 0#10 ++ addr).getLsbD (i - 32) := BitVec.getLsbD_append
  rw [e1]
  simp only [BitVec.getLsbD_append, BitVec.getLsbD_zero]
  split_ifs <;> first | rfl | omega

@[simp] theorem busDescriptor_reserved : (busDescriptor d size addr data).extractLsb' 52 10 = 0#10 := by
  apply BitVec.eq_of_getLsbD_eq
  intro i hi
  simp only [BitVec.getLsbD_extractLsb', busDescriptor_getLsbD, BitVec.getLsbD_zero,
    show ¬ 52 + i < 32 by omega, show ¬ 52 + i < 52 by omega, show 52 + i < 62 by omega, if_false,
    if_true, Bool.and_false]

@[simp] theorem busDescriptor_dir : (busDescriptor d size addr data).getLsbD 63 = d.getLsbD 0 := by
  simp only [busDescriptor_getLsbD]; rfl

@[simp] theorem sizeField_busDescriptor : sizeField (busDescriptor d size addr data) = size := by
  have : (busDescriptor d size addr data).getLsbD 62 = (sizeBit size).getLsbD 0 := by
    simp only [busDescriptor_getLsbD]; rfl
  unfold sizeField
  rw [this]
  cases size <;> rfl

@[simp] theorem addrField_busDescriptor : addrField (busDescriptor d size addr data) = addr := by
  apply BitVec.eq_of_getLsbD_eq
  intro i hi
  simp only [addrField, BitVec.getLsbD_extractLsb', busDescriptor_getLsbD, hi, decide_true,
    Bool.true_and, show ¬ 32 + i < 32 by omega, show 32 + i < 52 by omega,
    show 32 + i - 32 = i by omega, if_false, if_true]

@[simp] theorem dataField_busDescriptor : dataField (busDescriptor d size addr data) = data := by
  apply BitVec.eq_of_getLsbD_eq
  intro i hi
  simp only [dataField, BitVec.getLsbD_extractLsb', busDescriptor_getLsbD, hi, decide_true,
    Bool.true_and, Nat.zero_add, if_true]

/-- A descriptor with [61:52] zero is its four fields (30_encoding.md R73). -/
theorem busDescriptor_fields {v : Descriptor} (h : v.extractLsb' 52 10 = 0#10) :
    busDescriptor (BitVec.ofBool (v.getLsbD 63)) (sizeField v) (addrField v) (dataField v) = v := by
  have hs : sizeBit (sizeField v) = BitVec.ofBool (v.getLsbD 62) := by
    unfold sizeField; cases v.getLsbD 62 <;> rfl
  have hz : ∀ i, i < 10 → v.getLsbD (52 + i) = false := fun i hi => by
    have := congrArg (fun x => BitVec.getLsbD x i) h
    simpa only [BitVec.getLsbD_extractLsb', hi, decide_true, Bool.true_and,
      BitVec.getLsbD_zero] using this
  apply BitVec.eq_of_getLsbD_eq
  intro i hi
  simp only [busDescriptor_getLsbD, hs, addrField, dataField, BitVec.getLsbD_extractLsb',
    Nat.zero_add]
  by_cases h1 : i < 32
  · simp only [h1, if_true, decide_true, Bool.true_and]
  by_cases h2 : i < 52
  · simp only [h1, h2, show i - 32 < 20 by omega, show 32 + (i - 32) = i by omega, if_false,
      if_true, decide_true, Bool.true_and]
  by_cases h3 : i < 62
  · have := hz (i - 52) (by omega)
    rw [show 52 + (i - 52) = i by omega] at this
    simp only [h1, h2, h3, if_false, if_true, this]
  by_cases h4 : i = 62
  · subst h4; cases v.getLsbD 62 <;> rfl
  · have : i = 63 := by omega
    subst this; cases v.getLsbD 63 <;> rfl

end Sys2Proof
end

