-- ==== Sys2Proof/Laws/Bytes.lean ====
section
/-! SUPPORT. The little-endian primitives LeRead and LeWrite, byte by byte and as numbers. -/

namespace Sys2Proof.Machine

@[simp] theorem leBytes_length (n : Nat) (v : Word) : (leBytes n v).length = n := by
  induction n generalizing v with
  | zero => rfl
  | succ n ih => simp [leBytes, ih]

/-- Byte k of what LeWrite stores is v[8k+7 : 8k] (41_cursor.md R88). -/
theorem leBytes_getElem? {n k : Nat} (h : k < n) (v : Word) :
    (leBytes n v)[k]? = some (v.extractLsb' (8 * k) 8) := by
  induction n generalizing k v with
  | zero => omega
  | succ n ih =>
    cases k with
    | zero => simp [leBytes]
    | succ k =>
      rw [leBytes, List.getElem?_cons_succ, ih (by omega)]
      congr 1
      apply BitVec.eq_of_getLsbD_eq
      intro i hi
      simp [hi, show 8 + (8 * k + i) = 8 * (k + 1) + i by omega]

/-- Bit i of what LeRead forms is bit i mod 8 of byte i / 8 (41_cursor.md R87). -/
theorem leValue_getLsbD (bs : List Byte) (i : Nat) (hi : i < 32) :
    (leValue bs).getLsbD i = (bs[i / 8]?.getD 0#8).getLsbD (i % 8) := by
  induction bs generalizing i with
  | nil => simp [leValue]
  | cons b bs ih =>
    rw [leValue, BitVec.getLsbD_or, BitVec.getLsbD_setWidth, BitVec.getLsbD_shiftLeft]
    by_cases h : i < 8
    · simp [h, hi, show i / 8 = 0 by omega, show i % 8 = i by omega]
    · obtain ⟨j, rfl⟩ : ∃ j, i = j + 8 := ⟨i - 8, by omega⟩
      simp only [show (j + 8) / 8 = j / 8 + 1 by omega, show (j + 8) % 8 = j % 8 by omega,
        List.getElem?_cons_succ, ← ih j (by omega)]
      simp [hi]

/-- LeRead as a number: the lowest byte first (20_memory.md R42, R43). -/
theorem leValue_toNat_cons (b : Byte) {bs : List Byte} (h : bs.length ≤ 3) :
    (leValue (b :: bs)).toNat = b.toNat + 256 * (leValue bs).toNat := by
  have hlt : ∀ cs : List Byte, cs.length ≤ 4 → (leValue cs).toNat < 256 ^ cs.length := by
    intro cs
    induction cs with
    | nil => simp [leValue]
    | cons c cs ih =>
      intro hc
      simp only [List.length_cons] at hc
      have hi := ih (by omega)
      have h24 : (leValue cs).toNat < 2 ^ 24 :=
        lt_of_lt_of_le hi (le_trans (Nat.pow_le_pow_right (by omega) (show cs.length ≤ 3 by omega))
          (by norm_num))
      have hsh : (leValue cs <<< 8).toNat = (leValue cs).toNat * 2 ^ 8 := by
        rw [BitVec.toNat_shiftLeft, Nat.shiftLeft_eq, Nat.mod_eq_of_lt (by omega)]
      rw [leValue, BitVec.toNat_or, hsh, BitVec.toNat_setWidth, Nat.mod_eq_of_lt (by omega),
        Nat.or_comm, Nat.mul_comm, ← Nat.two_pow_add_eq_or_of_lt (by omega : c.toNat < 2 ^ 8)]
      simp only [List.length_cons, Nat.pow_succ]
      have := c.isLt
      omega
  have hi := hlt bs (by omega)
  have h24 : (leValue bs).toNat < 2 ^ 24 :=
    lt_of_lt_of_le hi (le_trans (Nat.pow_le_pow_right (by omega) h) (by norm_num))
  have hsh : (leValue bs <<< 8).toNat = (leValue bs).toNat * 2 ^ 8 := by
    rw [BitVec.toNat_shiftLeft, Nat.shiftLeft_eq, Nat.mod_eq_of_lt (by omega)]
  rw [leValue, BitVec.toNat_or, hsh, BitVec.toNat_setWidth, Nat.mod_eq_of_lt (by omega),
    Nat.or_comm, Nat.mul_comm, ← Nat.two_pow_add_eq_or_of_lt (by omega : b.toNat < 2 ^ 8)]
  omega

theorem leValue_singleton (b : Byte) : leValue [b] = b.setWidth 32 := by
  simp [leValue]

theorem leValue_pair_toNat (a b : Byte) : (leValue [a, b]).toNat = a.toNat + 256 * b.toNat := by
  rw [leValue_toNat_cons _ (by simp), leValue_singleton]
  simp; omega

/-- LeRead of the two bytes LeWrite stored is the 16-bit value. -/
theorem leValue_leBytes_two (h : Half) : leValue (leBytes 2 (h.setWidth 32)) = h.setWidth 32 := by
  apply BitVec.eq_of_getLsbD_eq
  intro i hi
  rw [leValue_getLsbD _ _ hi]
  by_cases h16 : i < 16
  · rw [leBytes_getElem? (by omega)]
    simp [show 8 * (i / 8) + i % 8 = i by omega,
      show i % 8 < 8 by omega]
  · have : (leBytes 2 (h.setWidth 32))[i / 8]? = none := by simp; omega
    simp [this, show 16 ≤ i by omega]

end Sys2Proof.Machine
end

