-- ==== Sys2Proof/Laws/Memory.lean ====
section
/-! SUPPORT. The laws of buffer memory: a read after a store, the canonical form and the bounds kept,
and what a load answers. -/

namespace Sys2Proof.Machine

/-! ### Reading -/

theorem Memory.read_append (m₁ m₂ : Memory) (x : Nat) :
    Memory.read (m₁ ++ m₂) x = (Memory.read m₁ x).or (Memory.read m₂ x) := by
  induction m₁ with
  | nil => simp [Memory.read]
  | cons c m ih =>
    by_cases h : c.1 = x
    · simp [Memory.read, h]
    · simp [Memory.read, h, ih]

theorem Memory.read_filter (p : Nat → Bool) (m : Memory) (x : Nat) :
    Memory.read (m.filter fun c => p c.1) x = if p x then m.read x else none := by
  induction m with
  | nil => simp [Memory.read]
  | cons c m ih =>
    by_cases hc : p c.1
    · by_cases h : c.1 = x
      · subst h; simp [Memory.read, hc]
      · simp [Memory.read, hc, h, ih]
    · by_cases h : c.1 = x
      · subst h; simp [hc, ih]
      · simp [Memory.read, hc, h, ih]

theorem Memory.read_eq_none_of_forall {m : Memory} {x : Nat} (h : ∀ c ∈ m, c.1 ≠ x) :
    m.read x = none := by
  induction m with
  | nil => rfl
  | cons c m ih =>
    simp [Memory.read, h c (by simp), ih fun d hd => h d (by simp [hd])]

theorem cellsFrom_read (a : Nat) (bs : List Byte) (x : Nat) :
    Memory.read (cellsFrom a bs) x = if a ≤ x then bs[x - a]? else none := by
  induction bs generalizing a with
  | nil => simp [cellsFrom, Memory.read]
  | cons b bs ih =>
    rw [cellsFrom, Memory.read]
    by_cases h : a = x
    · subst h; simp
    · by_cases h' : a ≤ x
      · have : x - a = (x - (a + 1)) + 1 := by omega
        simp [h, ih, h', show a + 1 ≤ x by omega, this]
      · simp [h, ih, h', show ¬ a + 1 ≤ x by omega]

/-- Every byte after a store: the stored byte inside the stored range, the old byte outside it. -/
theorem Memory.read_store (m : Memory) (a : Nat) (bs : List Byte) (x : Nat) :
    (m.store a bs).read x =
      if a ≤ x ∧ x < a + bs.length then bs[x - a]? else m.read x := by
  unfold Memory.store
  rw [Memory.read_append, Memory.read_append, cellsFrom_read,
    Memory.read_filter (fun k => decide (k < a)), Memory.read_filter (fun k => decide (a + bs.length ≤ k))]
  by_cases h1 : x < a
  · simp [h1, show ¬ a ≤ x by omega, show ¬ a + bs.length ≤ x by omega]
  · by_cases h2 : a + bs.length ≤ x
    · simp [h1, h2, show ¬ x < a + bs.length by omega, show bs[x - a]? = none by simp; omega]
    · simp [h1, h2, show a ≤ x by omega, show x < a + bs.length by omega]

theorem Memory.read_store_inside {m : Memory} {a : Nat} {bs : List Byte} {x : Nat} (h : a ≤ x)
    (h' : x < a + bs.length) : (m.store a bs).read x = bs[x - a]? := by
  simp [Memory.read_store, h, h']

theorem Memory.read_store_outside {m : Memory} {a : Nat} {bs : List Byte} {x : Nat}
    (h : x < a ∨ a + bs.length ≤ x) : (m.store a bs).read x = m.read x := by
  rw [Memory.read_store, if_neg (by omega)]

/-- A store never clears a valid bit (10_state.md R33). -/
theorem Memory.read_store_isSome {m : Memory} {a : Nat} {bs : List Byte} {x : Nat}
    (h : (m.read x).isSome = true) : ((m.store a bs).read x).isSome = true := by
  rw [Memory.read_store]
  split
  · simp; omega
  · exact h

/-! ### The canonical form -/

theorem cellsFrom_mem {a : Nat} {bs : List Byte} {c : Host.Cell} (h : c ∈ cellsFrom a bs) :
    a ≤ c.1 ∧ c.1 < a + bs.length := by
  induction bs generalizing a with
  | nil => simp [cellsFrom] at h
  | cons b bs ih =>
    rcases (by simpa [cellsFrom] using h : c = (a, b) ∨ c ∈ cellsFrom (a + 1) bs) with rfl | h
    · simp
    · have := ih h; simp; omega

theorem cellsFrom_pairwise (a : Nat) (bs : List Byte) :
    (cellsFrom a bs).Pairwise fun c d => c.1 < d.1 := by
  induction bs generalizing a with
  | nil => simp [cellsFrom]
  | cons b bs ih =>
    rw [cellsFrom, List.pairwise_cons]
    exact ⟨fun c hc => by have := cellsFrom_mem hc; show a < c.1; omega, ih (a + 1)⟩

/-- A store keeps the canonical form. -/
theorem Memory.store_wf {m : Memory} (h : m.wf = true) (a : Nat) (bs : List Byte) :
    (m.store a bs).wf = true := by
  have hm : m.Pairwise fun c d => c.1 < d.1 := of_decide_eq_true h
  refine decide_eq_true ?_
  unfold Memory.store
  rw [List.pairwise_append, List.pairwise_append]
  refine ⟨⟨hm.sublist List.filter_sublist, cellsFrom_pairwise a bs, ?_⟩,
    hm.sublist List.filter_sublist, ?_⟩
  · intro c hc d hd
    have := cellsFrom_mem hd
    simp only [List.mem_filter, decide_eq_true_eq] at hc
    omega
  · intro c hc d hd
    simp only [List.mem_filter, decide_eq_true_eq] at hd
    rcases List.mem_append.mp hc with hc | hc
    · simp only [List.mem_filter, decide_eq_true_eq] at hc; omega
    · have := cellsFrom_mem hc; omega

theorem Memory.store_within {n : Nat} {m : Memory} (h : m.within n = true) {a : Nat}
    {bs : List Byte} (hfit : a + bs.length ≤ n) : (m.store a bs).within n = true := by
  simp only [Memory.within, List.all_eq_true, decide_eq_true_eq] at h ⊢
  intro c hc
  unfold Memory.store at hc
  rcases List.mem_append.mp hc with hc | hc
  · rcases List.mem_append.mp hc with hc | hc
    · exact h c (List.mem_of_mem_filter hc)
    · have := cellsFrom_mem hc; omega
  · exact h c (List.mem_of_mem_filter hc)

/-- Equal memories are equal data: two canonical memories that read alike are the same list. -/
theorem Memory.ext_of_wf {m₁ m₂ : Memory} (h₁ : m₁.wf = true) (h₂ : m₂.wf = true)
    (h : ∀ x, m₁.read x = m₂.read x) : m₁ = m₂ := by
  have p₁ : m₁.Pairwise fun c d => c.1 < d.1 := of_decide_eq_true h₁
  have p₂ : m₂.Pairwise fun c d => c.1 < d.1 := of_decide_eq_true h₂
  clear h₁ h₂
  induction m₁ generalizing m₂ with
  | nil =>
    cases m₂ with
    | nil => rfl
    | cons d m₂ => have := h d.1; simp [Memory.read] at this
  | cons c m₁ ih =>
    cases m₂ with
    | nil => have := h c.1; simp [Memory.read] at this
    | cons d m₂ =>
      rw [List.pairwise_cons] at p₁ p₂
      have tail₁ : ∀ x, x ≤ c.1 → Memory.read m₁ x = none := fun x hx =>
        Memory.read_eq_none_of_forall fun e he => by have := p₁.1 e he; omega
      have tail₂ : ∀ x, x ≤ d.1 → Memory.read m₂ x = none := fun x hx =>
        Memory.read_eq_none_of_forall fun e he => by have := p₂.1 e he; omega
      have key : c.1 = d.1 := by
        rcases Nat.lt_trichotomy c.1 d.1 with hlt | heq | hgt
        · have := h c.1
          simp [Memory.read, tail₂ c.1 (by omega), show d.1 ≠ c.1 by omega] at this
        · exact heq
        · have := h d.1
          simp [Memory.read, tail₁ d.1 (by omega), show c.1 ≠ d.1 by omega] at this
      have val : c.2 = d.2 := by
        have := h c.1; simpa [Memory.read, key] using this
      have rest : m₁ = m₂ := by
        refine ih (fun x => ?_) p₁.2 p₂.2
        by_cases hx : c.1 = x
        · rw [tail₁ x (by omega), tail₂ x (by omega)]
        · have := h x
          simpa [Memory.read, hx, show d.1 ≠ x by omega] using this
      rw [rest, show c = d from Prod.ext key val]

/-! ### Loading -/

/-- A load answers bytes exactly when they are the valid bytes of its range, in order. -/
theorem Memory.load_eq_ok {m : Memory} {a n : Nat} {bs : List Byte} :
    m.load a n = .ok bs ↔ bs.length = n ∧ ∀ k < n, m.read (a + k) = bs[k]? := by
  induction n generalizing a bs with
  | zero => cases bs <;> simp [Memory.load]
  | succ n ih =>
    rw [Memory.load]
    constructor
    · intro h
      split at h
      · cases h
      · rename_i b hb
        split at h
        · rename_i cs hcs
          cases h
          obtain ⟨hl, hr⟩ := ih.mp hcs
          refine ⟨by simp [hl], fun k hk => ?_⟩
          cases k with
          | zero => simpa using hb
          | succ k =>
            have := hr k (by omega)
            rw [show a + (k + 1) = a + 1 + k by omega, this]
            simp
        · cases h
    · rintro ⟨hl, hr⟩
      cases bs with
      | nil => simp at hl
      | cons b bs =>
        have h0 : m.read a = some b := by simpa using hr 0 (by omega)
        have hrest : m.load (a + 1) n = .ok bs := by
          refine ih.mpr ⟨by simpa using hl, fun k hk => ?_⟩
          have := hr (k + 1) (by omega)
          rw [show a + 1 + k = a + (k + 1) by omega, this]
          simp
        simp [h0, hrest]

/-- A load fails exactly at its first invalid offset (41_cursor.md R87). -/
theorem Memory.load_eq_error {m : Memory} {a n x : Nat} :
    m.load a n = .error x ↔
      a ≤ x ∧ x < a + n ∧ m.read x = none ∧ ∀ y, a ≤ y → y < x → (m.read y).isSome = true := by
  induction n generalizing a with
  | zero => simp [Memory.load]; omega
  | succ n ih =>
    rw [Memory.load]
    split
    · rename_i hb
      constructor
      · intro h; cases h; exact ⟨le_refl _, by omega, hb, fun y h1 h2 => by omega⟩
      · rintro ⟨h1, h2, h3, h4⟩
        by_cases h : a = x
        · rw [h]
        · have := h4 a (le_refl _) (by omega); simp [hb] at this
    · rename_i b hb
      have hne : ∀ {x}, m.read x = none → x ≠ a := fun h h' => by subst h'; simp [hb] at h
      split
      · rename_i cs hcs
        simp only [reduceCtorEq, false_iff, not_and, not_forall]
        intro h1 h2 h3
        obtain ⟨hl, hr⟩ := Memory.load_eq_ok.mp hcs
        have := hr (x - (a + 1)) (by have := hne h3; omega)
        rw [show a + 1 + (x - (a + 1)) = x by have := hne h3; omega, h3] at this
        have hlen : x - (a + 1) < cs.length := by have := hne h3; omega
        simp [List.getElem?_eq_getElem hlen] at this
      · rename_i k hk
        have := ih (a := a + 1)
        rw [hk] at this
        rw [this]
        constructor
        · rintro ⟨h1, h2, h3, h4⟩
          refine ⟨by omega, by omega, h3, fun y hy1 hy2 => ?_⟩
          by_cases h : y = a
          · simp [h, hb]
          · exact h4 y (by omega) hy2
        · rintro ⟨h1, h2, h3, h4⟩
          have := hne h3
          exact ⟨by omega, by omega, h3, fun y hy1 hy2 => h4 y (by omega) hy2⟩

/-- Memories that read alike in a range load alike from it. -/
theorem Memory.load_congr {m₁ m₂ : Memory} {a n : Nat}
    (h : ∀ x, a ≤ x → x < a + n → m₁.read x = m₂.read x) : m₁.load a n = m₂.load a n := by
  induction n generalizing a with
  | zero => rfl
  | succ n ih =>
    rw [Memory.load, Memory.load, h a (le_refl _) (by omega),
      ih fun x h1 h2 => h x (by omega) (by omega)]

end Sys2Proof.Machine
end

