-- ==== Sys2Proof/Laws/State.lean ====
section
/-! SUPPORT. What each named update of the state does to each field, so that no later proof unfolds a
record update. -/

namespace Sys2Proof.Machine

variable (s : State)

/-! ### returning -/

@[simp] theorem State.returning_result (v : Word) :
    (s.returning v).result = s.result := rfl
@[simp] theorem State.returning_faultCause (v : Word) :
    (s.returning v).faultCause = s.faultCause := rfl
@[simp] theorem State.returning_faultInfo (v : Word) :
    (s.returning v).faultInfo = s.faultInfo := rfl
@[simp] theorem State.returning_id (v : Word) :
    (s.returning v).id = s.id := rfl
@[simp] theorem State.returning_cnt (v : Word) :
    (s.returning v).cnt = s.cnt := rfl
@[simp] theorem State.returning_len (v : Word) :
    (s.returning v).len = s.len := rfl
@[simp] theorem State.returning_flen (v : Word) :
    (s.returning v).flen = s.flen := rfl
@[simp] theorem State.returning_off (v : Word) :
    (s.returning v).off = s.off := rfl
@[simp] theorem State.returning_data (v : Word) :
    (s.returning v).data = s.data := rfl
@[simp] theorem State.returning_crcReg (v : Word) :
    (s.returning v).crcReg = s.crcReg := rfl
@[simp] theorem State.returning_crcState (v : Word) :
    (s.returning v).crcState = s.crcState := rfl
@[simp] theorem State.returning_crcVal (v : Word) :
    (s.returning v).crcVal = s.crcVal := rfl
@[simp] theorem State.returning_fbuf (v : Word) :
    (s.returning v).fbuf = s.fbuf := rfl
@[simp] theorem State.returning_pbuf (v : Word) :
    (s.returning v).pbuf = s.pbuf := rfl
@[simp] theorem State.returning_host (v : Word) :
    (s.returning v).host = s.host := rfl
@[simp] theorem State.returning_reads (v : Word) :
    (s.returning v).reads = s.reads ++ [v] := rfl

/-! ### storeFrame -/

@[simp] theorem State.storeFrame_result (a : Nat) (bs : List Byte) :
    (s.storeFrame a bs).result = s.result := rfl
@[simp] theorem State.storeFrame_faultCause (a : Nat) (bs : List Byte) :
    (s.storeFrame a bs).faultCause = s.faultCause := rfl
@[simp] theorem State.storeFrame_faultInfo (a : Nat) (bs : List Byte) :
    (s.storeFrame a bs).faultInfo = s.faultInfo := rfl
@[simp] theorem State.storeFrame_id (a : Nat) (bs : List Byte) :
    (s.storeFrame a bs).id = s.id := rfl
@[simp] theorem State.storeFrame_cnt (a : Nat) (bs : List Byte) :
    (s.storeFrame a bs).cnt = s.cnt := rfl
@[simp] theorem State.storeFrame_len (a : Nat) (bs : List Byte) :
    (s.storeFrame a bs).len = s.len := rfl
@[simp] theorem State.storeFrame_flen (a : Nat) (bs : List Byte) :
    (s.storeFrame a bs).flen = s.flen := rfl
@[simp] theorem State.storeFrame_off (a : Nat) (bs : List Byte) :
    (s.storeFrame a bs).off = s.off := rfl
@[simp] theorem State.storeFrame_data (a : Nat) (bs : List Byte) :
    (s.storeFrame a bs).data = s.data := rfl
@[simp] theorem State.storeFrame_crcReg (a : Nat) (bs : List Byte) :
    (s.storeFrame a bs).crcReg = s.crcReg := rfl
@[simp] theorem State.storeFrame_crcState (a : Nat) (bs : List Byte) :
    (s.storeFrame a bs).crcState = s.crcState := rfl
@[simp] theorem State.storeFrame_crcVal (a : Nat) (bs : List Byte) :
    (s.storeFrame a bs).crcVal = s.crcVal := rfl
@[simp] theorem State.storeFrame_fbuf (a : Nat) (bs : List Byte) :
    (s.storeFrame a bs).fbuf = s.fbuf.store a bs := rfl
@[simp] theorem State.storeFrame_pbuf (a : Nat) (bs : List Byte) :
    (s.storeFrame a bs).pbuf = s.pbuf := rfl
@[simp] theorem State.storeFrame_host (a : Nat) (bs : List Byte) :
    (s.storeFrame a bs).host = s.host := rfl
@[simp] theorem State.storeFrame_reads (a : Nat) (bs : List Byte) :
    (s.storeFrame a bs).reads = s.reads := rfl

/-! ### storePayload -/

@[simp] theorem State.storePayload_result (a : Nat) (bs : List Byte) :
    (s.storePayload a bs).result = s.result := rfl
@[simp] theorem State.storePayload_faultCause (a : Nat) (bs : List Byte) :
    (s.storePayload a bs).faultCause = s.faultCause := rfl
@[simp] theorem State.storePayload_faultInfo (a : Nat) (bs : List Byte) :
    (s.storePayload a bs).faultInfo = s.faultInfo := rfl
@[simp] theorem State.storePayload_id (a : Nat) (bs : List Byte) :
    (s.storePayload a bs).id = s.id := rfl
@[simp] theorem State.storePayload_cnt (a : Nat) (bs : List Byte) :
    (s.storePayload a bs).cnt = s.cnt := rfl
@[simp] theorem State.storePayload_len (a : Nat) (bs : List Byte) :
    (s.storePayload a bs).len = s.len := rfl
@[simp] theorem State.storePayload_flen (a : Nat) (bs : List Byte) :
    (s.storePayload a bs).flen = s.flen := rfl
@[simp] theorem State.storePayload_off (a : Nat) (bs : List Byte) :
    (s.storePayload a bs).off = s.off := rfl
@[simp] theorem State.storePayload_data (a : Nat) (bs : List Byte) :
    (s.storePayload a bs).data = s.data := rfl
@[simp] theorem State.storePayload_crcReg (a : Nat) (bs : List Byte) :
    (s.storePayload a bs).crcReg = s.crcReg := rfl
@[simp] theorem State.storePayload_crcState (a : Nat) (bs : List Byte) :
    (s.storePayload a bs).crcState = s.crcState := rfl
@[simp] theorem State.storePayload_crcVal (a : Nat) (bs : List Byte) :
    (s.storePayload a bs).crcVal = s.crcVal := rfl
@[simp] theorem State.storePayload_fbuf (a : Nat) (bs : List Byte) :
    (s.storePayload a bs).fbuf = s.fbuf := rfl
@[simp] theorem State.storePayload_pbuf (a : Nat) (bs : List Byte) :
    (s.storePayload a bs).pbuf = s.pbuf.store a bs := rfl
@[simp] theorem State.storePayload_host (a : Nat) (bs : List Byte) :
    (s.storePayload a bs).host = s.host := rfl
@[simp] theorem State.storePayload_reads (a : Nat) (bs : List Byte) :
    (s.storePayload a bs).reads = s.reads := rfl

/-! ### failing -/

@[simp] theorem State.failing_result (k : DecodeResult) :
    (s.failing k).result = k := rfl
@[simp] theorem State.failing_faultCause (k : DecodeResult) :
    (s.failing k).faultCause = s.faultCause := rfl
@[simp] theorem State.failing_faultInfo (k : DecodeResult) :
    (s.failing k).faultInfo = s.faultInfo := rfl
@[simp] theorem State.failing_id (k : DecodeResult) :
    (s.failing k).id = s.id := rfl
@[simp] theorem State.failing_cnt (k : DecodeResult) :
    (s.failing k).cnt = s.cnt := rfl
@[simp] theorem State.failing_len (k : DecodeResult) :
    (s.failing k).len = s.len := rfl
@[simp] theorem State.failing_flen (k : DecodeResult) :
    (s.failing k).flen = s.flen := rfl
@[simp] theorem State.failing_off (k : DecodeResult) :
    (s.failing k).off = s.off := rfl
@[simp] theorem State.failing_data (k : DecodeResult) :
    (s.failing k).data = s.data := rfl
@[simp] theorem State.failing_crcReg (k : DecodeResult) :
    (s.failing k).crcReg = s.crcReg := rfl
@[simp] theorem State.failing_crcState (k : DecodeResult) :
    (s.failing k).crcState = s.crcState := rfl
@[simp] theorem State.failing_crcVal (k : DecodeResult) :
    (s.failing k).crcVal = s.crcVal := rfl
@[simp] theorem State.failing_fbuf (k : DecodeResult) :
    (s.failing k).fbuf = s.fbuf := rfl
@[simp] theorem State.failing_pbuf (k : DecodeResult) :
    (s.failing k).pbuf = s.pbuf := rfl
@[simp] theorem State.failing_host (k : DecodeResult) :
    (s.failing k).host = s.host := rfl
@[simp] theorem State.failing_reads (k : DecodeResult) :
    (s.failing k).reads = s.reads := rfl

/-! ### delivering -/

@[simp] theorem State.delivering_result (i : Half) (c : Byte) (n : Half) (p : List Byte) :
    (s.delivering i c n p).result = .ok := rfl
@[simp] theorem State.delivering_faultCause (i : Half) (c : Byte) (n : Half) (p : List Byte) :
    (s.delivering i c n p).faultCause = s.faultCause := rfl
@[simp] theorem State.delivering_faultInfo (i : Half) (c : Byte) (n : Half) (p : List Byte) :
    (s.delivering i c n p).faultInfo = s.faultInfo := rfl
@[simp] theorem State.delivering_id (i : Half) (c : Byte) (n : Half) (p : List Byte) :
    (s.delivering i c n p).id = some i := rfl
@[simp] theorem State.delivering_cnt (i : Half) (c : Byte) (n : Half) (p : List Byte) :
    (s.delivering i c n p).cnt = some c := rfl
@[simp] theorem State.delivering_len (i : Half) (c : Byte) (n : Half) (p : List Byte) :
    (s.delivering i c n p).len = some n := rfl
@[simp] theorem State.delivering_flen (i : Half) (c : Byte) (n : Half) (p : List Byte) :
    (s.delivering i c n p).flen = s.flen := rfl
@[simp] theorem State.delivering_off (i : Half) (c : Byte) (n : Half) (p : List Byte) :
    (s.delivering i c n p).off = s.off := rfl
@[simp] theorem State.delivering_data (i : Half) (c : Byte) (n : Half) (p : List Byte) :
    (s.delivering i c n p).data = s.data := rfl
@[simp] theorem State.delivering_crcReg (i : Half) (c : Byte) (n : Half) (p : List Byte) :
    (s.delivering i c n p).crcReg = s.crcReg := rfl
@[simp] theorem State.delivering_crcState (i : Half) (c : Byte) (n : Half) (p : List Byte) :
    (s.delivering i c n p).crcState = s.crcState := rfl
@[simp] theorem State.delivering_crcVal (i : Half) (c : Byte) (n : Half) (p : List Byte) :
    (s.delivering i c n p).crcVal = s.crcVal := rfl
@[simp] theorem State.delivering_fbuf (i : Half) (c : Byte) (n : Half) (p : List Byte) :
    (s.delivering i c n p).fbuf = s.fbuf := rfl
@[simp] theorem State.delivering_pbuf (i : Half) (c : Byte) (n : Half) (p : List Byte) :
    (s.delivering i c n p).pbuf = s.pbuf.store 0 p := rfl
@[simp] theorem State.delivering_host (i : Half) (c : Byte) (n : Half) (p : List Byte) :
    (s.delivering i c n p).host = s.host := rfl
@[simp] theorem State.delivering_reads (i : Half) (c : Byte) (n : Half) (p : List Byte) :
    (s.delivering i c n p).reads = s.reads := rfl

/-! ### hostReset -/

@[simp] theorem State.hostReset_result :
    (s.hostReset).result = .none := rfl
@[simp] theorem State.hostReset_faultCause :
    (s.hostReset).faultCause = .none := rfl
@[simp] theorem State.hostReset_faultInfo :
    (s.hostReset).faultInfo = 0#32 := rfl
@[simp] theorem State.hostReset_id :
    (s.hostReset).id = none := rfl
@[simp] theorem State.hostReset_cnt :
    (s.hostReset).cnt = none := rfl
@[simp] theorem State.hostReset_len :
    (s.hostReset).len = none := rfl
@[simp] theorem State.hostReset_flen :
    (s.hostReset).flen = none := rfl
@[simp] theorem State.hostReset_off :
    (s.hostReset).off = 0#17 := rfl
@[simp] theorem State.hostReset_data :
    (s.hostReset).data = none := rfl
@[simp] theorem State.hostReset_crcReg :
    (s.hostReset).crcReg = 0xFFFF#16 := rfl
@[simp] theorem State.hostReset_crcState :
    (s.hostReset).crcState = .accum := rfl
@[simp] theorem State.hostReset_crcVal :
    (s.hostReset).crcVal = none := rfl
@[simp] theorem State.hostReset_fbuf :
    (s.hostReset).fbuf = [] := rfl
@[simp] theorem State.hostReset_pbuf :
    (s.hostReset).pbuf = [] := rfl
@[simp] theorem State.hostReset_host :
    (s.hostReset).host = s.host := rfl
@[simp] theorem State.hostReset_reads :
    (s.hostReset).reads = s.reads := rfl

/-! ### withFetchWord -/

@[simp] theorem State.withFetchWord_result (n w : Nat) :
    (s.withFetchWord n w).result = s.result := rfl
@[simp] theorem State.withFetchWord_faultCause (n w : Nat) :
    (s.withFetchWord n w).faultCause = s.faultCause := rfl
@[simp] theorem State.withFetchWord_faultInfo (n w : Nat) :
    (s.withFetchWord n w).faultInfo = s.faultInfo := rfl
@[simp] theorem State.withFetchWord_id (n w : Nat) :
    (s.withFetchWord n w).id = s.id := rfl
@[simp] theorem State.withFetchWord_cnt (n w : Nat) :
    (s.withFetchWord n w).cnt = s.cnt := rfl
@[simp] theorem State.withFetchWord_len (n w : Nat) :
    (s.withFetchWord n w).len = s.len := rfl
@[simp] theorem State.withFetchWord_flen (n w : Nat) :
    (s.withFetchWord n w).flen = s.flen := rfl
@[simp] theorem State.withFetchWord_off (n w : Nat) :
    (s.withFetchWord n w).off = s.off := rfl
@[simp] theorem State.withFetchWord_data (n w : Nat) :
    (s.withFetchWord n w).data = s.data := rfl
@[simp] theorem State.withFetchWord_crcReg (n w : Nat) :
    (s.withFetchWord n w).crcReg = s.crcReg := rfl
@[simp] theorem State.withFetchWord_crcState (n w : Nat) :
    (s.withFetchWord n w).crcState = s.crcState := rfl
@[simp] theorem State.withFetchWord_crcVal (n w : Nat) :
    (s.withFetchWord n w).crcVal = s.crcVal := rfl
@[simp] theorem State.withFetchWord_fbuf (n w : Nat) :
    (s.withFetchWord n w).fbuf = s.fbuf := rfl
@[simp] theorem State.withFetchWord_pbuf (n w : Nat) :
    (s.withFetchWord n w).pbuf = s.pbuf := rfl
@[simp] theorem State.withFetchWord_host (n w : Nat) :
    (s.withFetchWord n w).host = tableAction n w :: s.host := rfl
@[simp] theorem State.withFetchWord_reads (n w : Nat) :
    (s.withFetchWord n w).reads = s.reads := rfl

/-! ### raise

The fault record changes FAULT.CAUSE and FAULTINFO only, and only the first time
(60_exceptions.md R115). -/

@[simp] theorem State.raise_result (e : Raised) : (s.raise e).result = s.result := by
  unfold State.raise; split <;> rfl
@[simp] theorem State.raise_id (e : Raised) : (s.raise e).id = s.id := by
  unfold State.raise; split <;> rfl
@[simp] theorem State.raise_cnt (e : Raised) : (s.raise e).cnt = s.cnt := by
  unfold State.raise; split <;> rfl
@[simp] theorem State.raise_len (e : Raised) : (s.raise e).len = s.len := by
  unfold State.raise; split <;> rfl
@[simp] theorem State.raise_flen (e : Raised) : (s.raise e).flen = s.flen := by
  unfold State.raise; split <;> rfl
@[simp] theorem State.raise_off (e : Raised) : (s.raise e).off = s.off := by
  unfold State.raise; split <;> rfl
@[simp] theorem State.raise_data (e : Raised) : (s.raise e).data = s.data := by
  unfold State.raise; split <;> rfl
@[simp] theorem State.raise_crcReg (e : Raised) : (s.raise e).crcReg = s.crcReg := by
  unfold State.raise; split <;> rfl
@[simp] theorem State.raise_crcState (e : Raised) : (s.raise e).crcState = s.crcState := by
  unfold State.raise; split <;> rfl
@[simp] theorem State.raise_crcVal (e : Raised) : (s.raise e).crcVal = s.crcVal := by
  unfold State.raise; split <;> rfl
@[simp] theorem State.raise_fbuf (e : Raised) : (s.raise e).fbuf = s.fbuf := by
  unfold State.raise; split <;> rfl
@[simp] theorem State.raise_pbuf (e : Raised) : (s.raise e).pbuf = s.pbuf := by
  unfold State.raise; split <;> rfl
@[simp] theorem State.raise_host (e : Raised) : (s.raise e).host = s.host := by
  unfold State.raise; split <;> rfl
@[simp] theorem State.raise_reads (e : Raised) : (s.raise e).reads = s.reads := by
  unfold State.raise; split <;> rfl

theorem State.raise_of_clear {s : State} (h : s.faultCause = .none) (e : Raised) :
    s.raise e = { s with faultCause := e.cause, faultInfo := e.info } := by
  simp [State.raise, h]

theorem State.raise_of_faulted {s : State} (h : s.faultCause ≠ .none) (e : Raised) :
    s.raise e = s := by
  simp [State.raise, h]

theorem State.isFaulted_eq_false {s : State} : s.isFaulted = false ↔ s.faultCause = .none := by
  simp [State.isFaulted]

theorem State.isFaulted_eq_true {s : State} : s.isFaulted = true ↔ s.faultCause ≠ .none := by
  simp [State.isFaulted]

end Sys2Proof.Machine
end

