-- ==== Sys2Proof/Laws/Ops.lean ====
section
/-! SUPPORT. What each shared operation can do: transactions, buffer reads with their faults, and the
checked bodies of the commands. Later proofs cite these and do not unfold the operations. -/

namespace Sys2Proof.Machine

variable {s t : State}

/-! ### Except, one step at a time -/

theorem except_bind_eq_ok {ε α β : Type} {x : Except ε α} {f : α → Except ε β} {b : β} :
    (x >>= f) = .ok b ↔ ∃ a, x = .ok a ∧ f a = .ok b := by
  cases x <;> simp [bind, Except.bind]

theorem except_bind_eq_error {ε α β : Type} {x : Except ε α} {f : α → Except ε β} {e : ε} :
    (x >>= f) = .error e ↔ x = .error e ∨ ∃ a, x = .ok a ∧ f a = .error e := by
  cases x <;> simp [bind, Except.bind]

theorem except_map_eq_ok {ε α β : Type} {x : Except ε α} {f : α → β} {b : β} :
    x.map f = .ok b ↔ ∃ a, x = .ok a ∧ f a = b := by
  cases x <;> simp [Except.map]

theorem except_map_eq_error {ε α β : Type} {x : Except ε α} {f : α → β} {e : ε} :
    x.map f = .error e ↔ x = .error e := by
  cases x <;> simp [Except.map]

theorem except_ok_bind {ε α β : Type} (a : α) (f : α → Except ε β) :
    ((Except.ok a : Except ε α) >>= f) = f a := rfl

theorem except_error_bind {ε α β : Type} (e : ε) (f : α → Except ε β) :
    ((Except.error e : Except ε α) >>= f) = .error e := rfl

/-! ### Transactions -/

@[simp] theorem settle_ok : settle s (.ok t) = t := rfl

@[simp] theorem settle_error (e : Raised) : settle s (.error e) = s.raise e := rfl

@[simp] theorem settleRead_ok (v : Word) : settleRead s (.ok v) = s.returning v := rfl

@[simp] theorem settleRead_error (e : Raised) : settleRead s (.error e) = s.raise e := rfl

theorem transact_of_clear (h : s.faultCause = .none) (body : Except Raised State) :
    transact s body = .next (settle s body) := by
  simp [transact, State.isFaulted, h]

theorem transact_of_faulted (h : s.faultCause ≠ .none) (body : Except Raised State) :
    transact s body = .next s := by
  simp [transact, State.isFaulted, h]

/-- All a transaction can do: nothing while faulted, its body's state, or the fault record on the
state before it (60_exceptions.md R115, R116). -/
theorem transact_cases {body : Except Raised State} (h : transact s body = .next t) :
    (s.faultCause ≠ .none ∧ t = s) ∨ (s.faultCause = .none ∧ body = .ok t) ∨
      (s.faultCause = .none ∧ ∃ e, body = .error e ∧
        t = { s with faultCause := e.cause, faultInfo := e.info }) := by
  by_cases hs : s.faultCause = .none
  · rw [transact_of_clear hs] at h
    injection h with h
    cases body with
    | ok u => exact .inr (.inl ⟨hs, by simpa using h⟩)
    | error e => exact .inr (.inr ⟨hs, e, rfl, by rw [← h, settle_error, State.raise_of_clear hs]⟩)
  · rw [transact_of_faulted hs] at h
    injection h with h
    exact .inl ⟨hs, h.symm⟩

/-! ### Buffer reads -/

theorem State.loadFrame_eq_ok {a n : Nat} {bs : List Byte} :
    s.loadFrame a n = .ok bs ↔ bs.length = n ∧ ∀ k < n, s.fbuf.read (a + k) = bs[k]? := by
  rw [← Memory.load_eq_ok, State.loadFrame]
  cases s.fbuf.load a n <;> simp

theorem State.loadFrame_eq_error {a n : Nat} {e : Raised} :
    s.loadFrame a n = .error e ↔ ∃ x, e = ⟨.uninitRead, fbufInfo x⟩ ∧
      a ≤ x ∧ x < a + n ∧ s.fbuf.read x = none ∧
      ∀ y, a ≤ y → y < x → (s.fbuf.read y).isSome = true := by
  simp only [← Memory.load_eq_error, State.loadFrame]
  cases h : s.fbuf.load a n <;> simp [eq_comm]

theorem State.loadPayload_eq_ok {a n : Nat} {bs : List Byte} :
    s.loadPayload a n = .ok bs ↔ bs.length = n ∧ ∀ k < n, s.pbuf.read (a + k) = bs[k]? := by
  rw [← Memory.load_eq_ok, State.loadPayload]
  cases s.pbuf.load a n <;> simp

theorem State.loadPayload_eq_error {a n : Nat} {e : Raised} :
    s.loadPayload a n = .error e ↔ ∃ x, e = ⟨.uninitRead, pbufInfo x⟩ ∧
      a ≤ x ∧ x < a + n ∧ s.pbuf.read x = none ∧
      ∀ y, a ≤ y → y < x → (s.pbuf.read y).isSome = true := by
  simp only [← Memory.load_eq_error, State.loadPayload]
  cases h : s.pbuf.load a n <;> simp [eq_comm]

theorem State.leReadFrame_eq_ok {a n : Nat} {v : Word} :
    s.leReadFrame a n = .ok v ↔ ∃ bs, s.loadFrame a n = .ok bs ∧ leValue bs = v := by
  rw [State.leReadFrame]
  cases s.loadFrame a n <;> simp

theorem State.leReadFrame_eq_error {a n : Nat} {e : Raised} :
    s.leReadFrame a n = .error e ↔ s.loadFrame a n = .error e := by
  rw [State.leReadFrame]
  cases s.loadFrame a n <;> simp

/-- LeRead of two bytes is a 16-bit value. -/
theorem State.leReadFrame_two_lt {a : Nat} {v : Word} (h : s.leReadFrame a 2 = .ok v) :
    v.toNat < 2 ^ 16 := by
  obtain ⟨bs, hbs, rfl⟩ := State.leReadFrame_eq_ok.mp h
  have h2 := (State.loadFrame_eq_ok.mp hbs).1
  match bs, h2 with
  | [a, b], _ => rw [leValue_pair_toNat]; omega

/-! ### Register operands -/

theorem validated_eq_ok {n : Nat} {r : Reg} {v : Option (BitVec n)} {x : BitVec n} :
    validated r v = .ok x ↔ v = some x := by
  cases v <;> simp [validated]

theorem validated_eq_error {n : Nat} {r : Reg} {v : Option (BitVec n)} {e : Raised} :
    validated r v = .error e ↔ v = none ∧ e = ⟨.uninitRead, addrInfo (regAddr r)⟩ := by
  cases v <;> simp [validated, eq_comm]

theorem inField_eq_ok {n : Nat} {r : Reg} {w : Word} {v : BitVec n} :
    inField n r w = .ok v ↔ w.toNat < 2 ^ n ∧ v = w.setWidth n := by
  unfold inField; split <;> simp [*, eq_comm]

theorem inField_eq_error {n : Nat} {r : Reg} {w : Word} {e : Raised} :
    inField n r w = .error e ↔ ¬ w.toNat < 2 ^ n ∧ e = ⟨.fieldRange, addrInfo (regAddr r)⟩ := by
  unfold inField; split <;> simp [*, eq_comm]

/-! ### The cursor commands -/

theorem widthChecked_eq_ok {count : BitVec 3} {w : Word} {n : Nat} :
    widthChecked count w = .ok n ↔ (1 ≤ count.toNat ∧ count.toNat ≤ 4) ∧ count.toNat = n := by
  unfold widthChecked; split <;> simp [*]

theorem widthChecked_eq_error {count : BitVec 3} {w : Word} {e : Raised} :
    widthChecked count w = .error e ↔
      ¬ (1 ≤ count.toNat ∧ count.toNat ≤ 4) ∧ e = ⟨.cursorWidth, w⟩ := by
  unfold widthChecked; split <;> simp [*, eq_comm]

theorem boundsChecked_eq_ok {flen off : Extent} {n : Nat} {w : Word} {o : Nat} :
    boundsChecked flen off n w = .ok o ↔ off.toNat + n ≤ cursorBound flen ∧ off.toNat = o := by
  unfold boundsChecked; split <;> simp [*]

theorem boundsChecked_eq_error {flen off : Extent} {n : Nat} {w : Word} {e : Raised} :
    boundsChecked flen off n w = .error e ↔
      ¬ off.toNat + n ≤ cursorBound flen ∧ e = ⟨.cursorBounds, w⟩ := by
  unfold boundsChecked; split <;> simp [*, eq_comm]

/-- The cursor never passes the end of FBUF, so an advanced OFF is exact. -/
theorem advanced_toNat {flen off : Extent} {n : Nat} (h : off.toNat + n ≤ cursorBound flen) :
    (advanced off n).toNat = off.toNat + n := by
  have : off.toNat + n ≤ 65542 := le_trans h (Nat.min_le_right _ _)
  rw [advanced, BitVec.toNat_ofNat, Nat.mod_eq_of_lt (by omega)]

/-- When CUR_READ succeeds, and what it then answers (41_cursor.md R91). -/
theorem curReadBody_eq_ok {count : BitVec 3} :
    curReadBody count s = .ok t ↔
      (1 ≤ count.toNat ∧ count.toNat ≤ 4) ∧
      ∃ l, s.flen = some l ∧ s.off.toNat + count.toNat ≤ cursorBound l ∧
      ∃ bs, s.loadFrame s.off.toNat count.toNat = .ok bs ∧
        t = { s with data := some (leValue bs), off := advanced s.off count.toNat } := by
  simp only [curReadBody, except_bind_eq_ok, widthChecked_eq_ok, validated_eq_ok,
    boundsChecked_eq_ok, State.leReadFrame_eq_ok]
  constructor
  · rintro ⟨n, ⟨hw, rfl⟩, l, hl, o, ⟨hb, rfl⟩, v, ⟨bs, hbs, rfl⟩, h⟩
    exact ⟨hw, l, hl, hb, bs, hbs, by injection h with h; exact h.symm⟩
  · rintro ⟨hw, l, hl, hb, bs, hbs, rfl⟩
    exact ⟨_, ⟨hw, rfl⟩, l, hl, _, ⟨hb, rfl⟩, _, ⟨bs, hbs, rfl⟩, rfl⟩

/-- CUR_READ's faults in priority order (41_cursor.md R91). -/
theorem curReadBody_eq_error {count : BitVec 3} {e : Raised} :
    curReadBody count s = .error e ↔
      (¬ (1 ≤ count.toNat ∧ count.toNat ≤ 4) ∧ e = ⟨.cursorWidth, curReadWord count⟩) ∨
      (1 ≤ count.toNat ∧ count.toNat ≤ 4) ∧
      ((s.flen = none ∧ e = ⟨.uninitRead, addrInfo (regAddr .flen)⟩) ∨
      ∃ l, s.flen = some l ∧
      ((¬ s.off.toNat + count.toNat ≤ cursorBound l ∧ e = ⟨.cursorBounds, curReadWord count⟩) ∨
      s.off.toNat + count.toNat ≤ cursorBound l ∧
        s.loadFrame s.off.toNat count.toNat = .error e)) := by
  simp only [curReadBody, except_bind_eq_error, widthChecked_eq_ok, widthChecked_eq_error,
    validated_eq_ok, validated_eq_error, boundsChecked_eq_ok, boundsChecked_eq_error,
    State.leReadFrame_eq_error, reduceCtorEq, and_false, exists_false, or_false]
  constructor
  · rintro (h | ⟨n, ⟨hw, rfl⟩, h | ⟨l, hl, h | ⟨o, ⟨hb, rfl⟩, h⟩⟩⟩)
    · exact .inl h
    · exact .inr ⟨hw, .inl h⟩
    · exact .inr ⟨hw, .inr ⟨l, hl, .inl h⟩⟩
    · exact .inr ⟨hw, .inr ⟨l, hl, .inr ⟨hb, h⟩⟩⟩
  · rintro (h | ⟨hw, h | ⟨l, hl, h | ⟨hb, h⟩⟩⟩)
    · exact .inl h
    · exact .inr ⟨_, ⟨hw, rfl⟩, .inl h⟩
    · exact .inr ⟨_, ⟨hw, rfl⟩, .inr ⟨l, hl, .inl h⟩⟩
    · exact .inr ⟨_, ⟨hw, rfl⟩, .inr ⟨l, hl, .inr ⟨_, ⟨hb, rfl⟩, h⟩⟩⟩

/-- When CUR_WRITE succeeds, and what it then answers (41_cursor.md R92). -/
theorem curWriteBody_eq_ok {count : BitVec 3} :
    curWriteBody count s = .ok t ↔
      (1 ≤ count.toNat ∧ count.toNat ≤ 4) ∧
      ∃ v l, s.data = some v ∧ s.flen = some l ∧ s.off.toNat + count.toNat ≤ cursorBound l ∧
        t = { s.storeFrame s.off.toNat (leBytes count.toNat v) with
          off := advanced s.off count.toNat } := by
  simp only [curWriteBody, except_bind_eq_ok, widthChecked_eq_ok, validated_eq_ok,
    boundsChecked_eq_ok]
  constructor
  · rintro ⟨n, ⟨hw, rfl⟩, v, hv, l, hl, o, ⟨hb, rfl⟩, h⟩
    exact ⟨hw, v, l, hv, hl, hb, by injection h with h; exact h.symm⟩
  · rintro ⟨hw, v, l, hv, hl, hb, rfl⟩
    exact ⟨_, ⟨hw, rfl⟩, v, hv, l, hl, _, ⟨hb, rfl⟩, rfl⟩

/-- CUR_WRITE's faults in priority order (41_cursor.md R92). -/
theorem curWriteBody_eq_error {count : BitVec 3} {e : Raised} :
    curWriteBody count s = .error e ↔
      (¬ (1 ≤ count.toNat ∧ count.toNat ≤ 4) ∧ e = ⟨.cursorWidth, curWriteWord count⟩) ∨
      (1 ≤ count.toNat ∧ count.toNat ≤ 4) ∧
      ((s.data = none ∧ e = ⟨.uninitRead, addrInfo (regAddr .data)⟩) ∨
      s.data.isSome = true ∧
      ((s.flen = none ∧ e = ⟨.uninitRead, addrInfo (regAddr .flen)⟩) ∨
      ∃ l, s.flen = some l ∧
        ¬ s.off.toNat + count.toNat ≤ cursorBound l ∧
        e = ⟨.cursorBounds, curWriteWord count⟩)) := by
  simp only [curWriteBody, except_bind_eq_error, widthChecked_eq_ok, widthChecked_eq_error,
    validated_eq_ok, validated_eq_error, boundsChecked_eq_error, reduceCtorEq, and_false,
    exists_false, or_false]
  constructor
  · rintro (h | ⟨n, ⟨hw, rfl⟩, h | ⟨v, hv, h⟩⟩)
    · exact .inl h
    · exact .inr ⟨hw, .inl h⟩
    · exact .inr ⟨hw, .inr ⟨by simp [hv], h⟩⟩
  · rintro (h | ⟨hw, h | ⟨hv, h⟩⟩)
    · exact .inl h
    · exact .inr ⟨_, ⟨hw, rfl⟩, .inl h⟩
    · obtain ⟨v, hv⟩ := Option.isSome_iff_exists.mp hv
      exact .inr ⟨_, ⟨hw, rfl⟩, .inr ⟨v, hv, h⟩⟩

/-! ### The codec commands -/

/-- When ENCODE succeeds, and what it then answers (42_codec.md R97). -/
theorem encodeBody_eq_ok :
    encodeBody s = .ok t ↔
      ∃ id cnt n p, s.id = some id ∧ s.cnt = some cnt ∧ s.len = some n ∧
        s.loadPayload 0 n.toNat = .ok p ∧
        t = { s.storeFrame 0 (frameBytes id cnt n p) with
          flen := some (BitVec.ofNat 17 (Config.overhead + n.toNat)) } := by
  simp only [encodeBody, except_bind_eq_ok, validated_eq_ok]
  constructor
  · rintro ⟨id, h1, cnt, h2, n, h3, p, h4, h⟩
    exact ⟨id, cnt, n, p, h1, h2, h3, h4, by injection h with h; exact h.symm⟩
  · rintro ⟨id, cnt, n, p, h1, h2, h3, h4, rfl⟩
    exact ⟨id, h1, cnt, h2, n, h3, p, h4, rfl⟩

/-- ENCODE's faults in priority order (42_codec.md R97). -/
theorem encodeBody_eq_error {e : Raised} :
    encodeBody s = .error e ↔
      (s.id = none ∧ e = ⟨.uninitRead, addrInfo (regAddr .id)⟩) ∨
      s.id.isSome = true ∧
      ((s.cnt = none ∧ e = ⟨.uninitRead, addrInfo (regAddr .cnt)⟩) ∨
      s.cnt.isSome = true ∧
      ((s.len = none ∧ e = ⟨.uninitRead, addrInfo (regAddr .len)⟩) ∨
      ∃ n, s.len = some n ∧ s.loadPayload 0 n.toNat = .error e)) := by
  simp only [encodeBody, except_bind_eq_error, validated_eq_ok, validated_eq_error, reduceCtorEq,
    and_false, exists_false, or_false]
  constructor
  · rintro (h | ⟨id, h1, h | ⟨cnt, h2, h⟩⟩)
    · exact .inl h
    · exact .inr ⟨by simp [h1], .inl h⟩
    · exact .inr ⟨by simp [h1], .inr ⟨by simp [h2], h⟩⟩
  · rintro (h | ⟨h1, h | ⟨h2, h⟩⟩)
    · exact .inl h
    · obtain ⟨id, h1⟩ := Option.isSome_iff_exists.mp h1
      exact .inr ⟨id, h1, .inl h⟩
    · obtain ⟨id, h1⟩ := Option.isSome_iff_exists.mp h1
      obtain ⟨cnt, h2⟩ := Option.isSome_iff_exists.mp h2
      exact .inr ⟨id, h1, .inr ⟨cnt, h2, h⟩⟩

theorem decodeChecked_ok_cases {id cnt dl : Word} (h : decodeChecked s id cnt dl = .ok t) :
    ∃ covered v, s.loadFrame 0 (5 + dl.toNat) = .ok covered ∧
      s.leReadFrame (5 + dl.toNat) 2 = .ok v ∧
      (((crcValue covered).setWidth 32 ≠ v ∧ t = s.failing .crcMismatch) ∨
      (crcValue covered).setWidth 32 = v ∧
        t = s.delivering (id.setWidth 16) (cnt.setWidth 8) (dl.setWidth 16) (covered.drop 5)) := by
  obtain ⟨covered, hc, h⟩ := except_bind_eq_ok.mp h
  obtain ⟨v, hv, h⟩ := except_bind_eq_ok.mp h
  refine ⟨covered, v, hc, hv, ?_⟩
  split at h
  · injection h with h; exact .inl ⟨by assumption, h.symm⟩
  · injection h with h; exact .inr ⟨by simp_all, h.symm⟩

theorem decodeHeader_ok_cases {l : Extent} (h : decodeHeader s l = .ok t) :
    ∃ id cnt dl, s.leReadFrame 0 2 = .ok id ∧ s.leReadFrame 2 1 = .ok cnt ∧
      s.leReadFrame 3 2 = .ok dl ∧
      ((dl.toNat ≠ l.toNat - 7 ∧ t = s.failing .lenMismatch) ∨
      dl.toNat = l.toNat - 7 ∧ decodeChecked s id cnt dl = .ok t) := by
  obtain ⟨id, hid, h⟩ := except_bind_eq_ok.mp h
  obtain ⟨cnt, hcnt, h⟩ := except_bind_eq_ok.mp h
  obtain ⟨dl, hdl, h⟩ := except_bind_eq_ok.mp h
  refine ⟨id, cnt, dl, hid, hcnt, hdl, ?_⟩
  split at h
  · injection h with h; exact .inl ⟨by assumption, h.symm⟩
  · rename_i hne; exact .inr ⟨Decidable.not_not.mp hne, h⟩

/-- All a DECODE that does not fault can do: one of the three failures, which write RESULT alone, or
the delivery of a checked frame (42_codec.md R98, R99). -/
theorem decodeBody_ok_cases (h : decodeBody s = .ok t) :
    ∃ l, s.flen = some l ∧
    ((l.toNat < 7 ∧ t = s.failing .tooShort) ∨ 7 ≤ l.toNat ∧ decodeHeader s l = .ok t) := by
  obtain ⟨l, hl, h⟩ := except_bind_eq_ok.mp h
  refine ⟨l, validated_eq_ok.mp hl, ?_⟩
  split at h
  · injection h with h; exact .inl ⟨by assumption, h.symm⟩
  · rename_i hne; exact .inr ⟨Nat.le_of_not_lt hne, h⟩

/-- DECODE's faults: an invalid FLEN or an invalid byte of FBUF (42_codec.md R98). -/
theorem decodeBody_error_cases {e : Raised} (h : decodeBody s = .error e) :
    (s.flen = none ∧ e = ⟨.uninitRead, addrInfo (regAddr .flen)⟩) ∨
    ∃ a n, a + n ≤ 65542 ∧ s.loadFrame a n = .error e := by
  rcases except_bind_eq_error.mp h with h | ⟨l, hl, h⟩
  · exact .inl (validated_eq_error.mp h)
  right
  split at h
  · cases h
  rcases except_bind_eq_error.mp h with h | ⟨id, hid, h⟩
  · exact ⟨0, 2, by omega, State.leReadFrame_eq_error.mp h⟩
  rcases except_bind_eq_error.mp h with h | ⟨cnt, hcnt, h⟩
  · exact ⟨2, 1, by omega, State.leReadFrame_eq_error.mp h⟩
  rcases except_bind_eq_error.mp h with h | ⟨dl, hdl, h⟩
  · exact ⟨3, 2, by omega, State.leReadFrame_eq_error.mp h⟩
  have hlt := State.leReadFrame_two_lt hdl
  split at h
  · cases h
  rcases except_bind_eq_error.mp h with h | ⟨covered, hc, h⟩
  · exact ⟨0, 5 + dl.toNat, by omega, h⟩
  rcases except_bind_eq_error.mp h with h | ⟨v, hv, h⟩
  · exact ⟨5 + dl.toNat, 2, by omega, State.leReadFrame_eq_error.mp h⟩
  split at h <;> cases h

end Sys2Proof.Machine
end

