-- ==== Sys2Proof/Laws/Bus.lean ====
section
/-! SUPPORT. What a bus address reaches, and all a host transaction or a command can do. -/

namespace Sys2Proof.Machine

variable {s t : State}

/-! ### Addresses -/

theorem regAt_regAddr (r : Reg) : regAt (regAddr r) = some r := by
  cases r <;> decide

theorem regAt_eq_some {addr : Addr} {r : Reg} : regAt addr = some r ↔ addr = regAddr r := by
  constructor
  · intro h
    have := List.find?_some h
    exact (of_decide_eq_true this).symm
  · rintro rfl; exact regAt_regAddr r

theorem regAddr_lt_window (r : Reg) : (regAddr r).toNat < Config.windowSize := by
  cases r <;> decide

theorem regAddr_injective {r q : Reg} (h : regAddr r = regAddr q) : r = q := by
  have := regAt_regAddr r
  rw [h, regAt_regAddr] at this
  injection this with this
  exact this.symm

/-- The window's holes: misaligned addresses and the reserved words (20_memory.md R52). -/
theorem regAt_eq_none {addr : Addr} (h : addr.toNat < 64) :
    regAt addr = none ↔ addr.toNat % 4 ≠ 0 ∨ 48 ≤ addr.toNat := by
  have key : ∀ k : Fin 64, regAt (BitVec.ofNat 20 k.val) = none ↔ k.val % 4 ≠ 0 ∨ 48 ≤ k.val := by
    decide
  have := key ⟨addr.toNat, h⟩
  rwa [BitVec.ofNat_toNat, BitVec.setWidth_eq] at this

/-- The address map in numbers (20_memory.md R39). -/
theorem place_numeric (size : AccessSize) (addr : Addr) :
    place size addr =
      if addr.toNat < 64 then if size = .word then (regAt addr).map .register else none
      else if 65536 ≤ addr.toNat ∧ addr.toNat < 131078 then
        if size = .byte then some (.frame (addr.toNat - 65536)) else none
      else if 196608 ≤ addr.toNat ∧ addr.toNat < 262143 then
        if size = .byte then some (.payload (addr.toNat - 196608)) else none
      else none := rfl

/-- The window takes aligned 4-byte accesses of a register that exists (20_memory.md R46). -/
theorem place_eq_register {size : AccessSize} {addr : Addr} {r : Reg} :
    place size addr = some (.register r) ↔ size = .word ∧ addr = regAddr r := by
  unfold place
  constructor
  · intro h
    split at h
    · split at h
      · simp only [Option.map_eq_some_iff, Place.register.injEq, exists_eq_right] at h
        exact ⟨by assumption, regAt_eq_some.mp h⟩
      · cases h
    · split at h
      · split at h <;> simp at h
      · split at h
        · split at h <;> simp at h
        · cases h
  · rintro ⟨rfl, rfl⟩
    rw [if_pos (regAddr_lt_window r), if_pos rfl, regAt_regAddr]; rfl

/-- FBUF takes 1-byte accesses at 0x10000 + a (20_memory.md R46, R47). -/
theorem place_eq_frame {size : AccessSize} {addr : Addr} {a : Nat} :
    place size addr = some (.frame a) ↔ size = .byte ∧ a < 65542 ∧ addr.toNat = 0x10000 + a := by
  rw [place_numeric]
  constructor
  · intro h
    split at h
    · split at h <;> simp at h
    · split at h
      · split at h
        · rename_i hsize
          simp only [Option.some.injEq, Place.frame.injEq] at h
          exact ⟨hsize, by omega, by omega⟩
        · cases h
      · split at h
        · split at h <;> simp at h
        · cases h
  · rintro ⟨rfl, h1, h2⟩
    have w1 : ¬ addr.toNat < 64 := by omega
    have w2 : 65536 ≤ addr.toNat ∧ addr.toNat < 131078 := by omega
    rw [if_neg w1, if_pos w2, if_pos rfl, show addr.toNat - 65536 = a by omega]

/-- PBUF takes 1-byte accesses at 0x30000 + a (20_memory.md R46, R47). -/
theorem place_eq_payload {size : AccessSize} {addr : Addr} {a : Nat} :
    place size addr = some (.payload a) ↔ size = .byte ∧ a < 65535 ∧ addr.toNat = 0x30000 + a := by
  rw [place_numeric]
  constructor
  · intro h
    split at h
    · split at h <;> simp at h
    · split at h
      · split at h <;> simp at h
      · split at h
        · split at h
          · rename_i hsize
            simp only [Option.some.injEq, Place.payload.injEq] at h
            exact ⟨hsize, by omega, by omega⟩
          · cases h
        · cases h
  · rintro ⟨rfl, h1, h2⟩
    have w1 : ¬ addr.toNat < 64 := by omega
    have w2 : ¬ (65536 ≤ addr.toNat ∧ addr.toNat < 131078) := by omega
    have w3 : 196608 ≤ addr.toNat ∧ addr.toNat < 262143 := by omega
    rw [if_neg w1, if_neg w2, if_pos w3, if_pos rfl, show addr.toNat - 196608 = a by omega]

/-! ### Command dispatch -/

/-- Execute(w) runs the command `w` decodes to (30_encoding.md R72). -/
theorem execute_of_decode {w : Word} {i : Instr} (h : decodeCmd w = .ok i) :
    execute w s = exec i s := by
  have hc := decodeCmd_isCommand h
  unfold execute
  rw [h]
  cases i <;> first | rfl | simp [Instr.isCommand] at hc

/-- Execute(w) of any other word faults ILLEGAL_CMD with the word (30_encoding.md R69, R70). -/
theorem execute_of_error {w : Word} {e : DecodeError} (h : decodeCmd w = .error e) :
    execute w s = transact s (.error ⟨.illegalCmd, w⟩) := by
  unfold execute; rw [h]

/-! ### Host transactions -/

theorem execBusRd_of_clear (h : s.faultCause = .none) (size : AccessSize) (addr : Addr) :
    execBusRd size addr s = .next (settleRead s (busReadValue size addr s)) := by
  simp [execBusRd, State.isFaulted, h]

theorem execBusRd_of_faulted (h : s.faultCause ≠ .none) (size : AccessSize) (addr : Addr) :
    execBusRd size addr s = .next (s.returning (faultedReadValue size addr s)) := by
  simp [execBusRd, State.isFaulted, h]

theorem execBusWr_of_faulted (h : s.faultCause ≠ .none) (size : AccessSize) (addr : Addr) (w : Word) :
    execBusWr size addr w s = .next s := by
  simp [execBusWr, State.isFaulted, h]

/-- A write of CMD is Execute(w) (20_memory.md R56). -/
theorem execBusWr_cmd (h : s.faultCause = .none) (w : Word) :
    execBusWr .word 0x00000#20 w s = execute w s := by
  have : place .word 0x00000#20 = some (.register .cmd) := by decide
  simp [execBusWr, State.isFaulted, h, this]

/-- Every other write is one transaction (20_memory.md R56). -/
theorem execBusWr_of_ne_cmd {size : AccessSize} {addr : Addr} (w : Word)
    (h : place size addr ≠ some (.register .cmd)) :
    execBusWr size addr w s = transact s (busWriteBody (place size addr) addr w s) := by
  by_cases hs : s.faultCause = .none
  · simp only [execBusWr, State.isFaulted, hs, ne_eq, not_true_eq_false, decide_false,
      Bool.false_eq_true, if_false]
  · rw [execBusWr_of_faulted hs, transact_of_faulted hs]

/-- All a BUS_RD can do: return a value, which changes nothing else, or record its fault
(20_memory.md R50, R55). -/
theorem execBusRd_cases {size : AccessSize} {addr : Addr} (h : execBusRd size addr s = .next t) :
    (∃ v, t = s.returning v) ∨
      (s.faultCause = .none ∧ ∃ e, busReadValue size addr s = .error e ∧
        t = { s with faultCause := e.cause, faultInfo := e.info }) := by
  by_cases hs : s.faultCause = .none
  · rw [execBusRd_of_clear hs] at h
    injection h with h
    cases hv : busReadValue size addr s with
    | ok v => exact .inl ⟨v, by rw [← h, hv]; rfl⟩
    | error e =>
      exact .inr ⟨hs, e, rfl, by rw [← h, hv, settleRead_error, State.raise_of_clear hs]⟩
  · rw [execBusRd_of_faulted hs] at h
    injection h with h
    exact .inl ⟨_, h.symm⟩

/-- The whole effect of a register write that stores (20_memory.md R56). -/
theorem regWriteBody_ok_cases {r : Reg} {w : Word} (h : regWriteBody r w s = .ok t) :
    (r = .id ∧ w.toNat < 2 ^ 16 ∧ t = { s with id := some (w.setWidth 16) }) ∨
    (r = .cnt ∧ w.toNat < 2 ^ 8 ∧ t = { s with cnt := some (w.setWidth 8) }) ∨
    (r = .len ∧ w.toNat < 2 ^ 16 ∧ t = { s with len := some (w.setWidth 16) }) ∨
    (r = .flen ∧ w.toNat < 2 ^ 17 ∧ t = { s with flen := some (w.setWidth 17) }) ∨
    (r = .off ∧ w.toNat < 2 ^ 17 ∧ t = { s with off := w.setWidth 17 }) ∨
    (r = .data ∧ t = { s with data := some w }) ∨ (r = .cmd ∧ t = s) := by
  cases r <;> simp only [regWriteBody, except_map_eq_ok, inField_eq_ok, reduceCtorEq,
    Except.ok.injEq] at h <;> aesop

end Sys2Proof.Machine
end

