-- ==== Sys2Proof/Laws/Codec.lean ====
section
/-! SUPPORT. The codec on known bytes: the frame ENCODE stores, and DECODE's checks one by one. -/

namespace Sys2Proof.Machine

variable {s : State}

/-! ### The frame -/

theorem leBytes_two (h : Half) :
    leBytes 2 (h.setWidth 32) = [h.extractLsb' 0 8, h.extractLsb' 8 8] := by
  simp only [leBytes, List.cons.injEq, and_true]
  constructor <;>
  · apply BitVec.eq_of_getLsbD_eq
    intro i hi
    simp only [BitVec.getLsbD_extractLsb', BitVec.getLsbD_setWidth, BitVec.getLsbD_ushiftRight, hi,
      decide_true, Bool.true_and, Nat.zero_add, show i < 32 by omega, show 8 + i < 32 by omega]

theorem leBytes_one (b : Byte) : leBytes 1 (b.setWidth 32) = [b] := by
  simp only [leBytes, List.cons.injEq, and_true]
  apply BitVec.eq_of_getLsbD_eq
  intro i hi
  simp only [BitVec.getLsbD_extractLsb', BitVec.getLsbD_setWidth, hi, decide_true, Bool.true_and,
    Nat.zero_add, show i < 32 by omega]

/-- The header byte by byte (42_codec.md R94). -/
theorem headerBytes_eq (id : Half) (cnt : Byte) (n : Half) :
    headerBytes id cnt n =
      [id.extractLsb' 0 8, id.extractLsb' 8 8, cnt, n.extractLsb' 0 8, n.extractLsb' 8 8] := by
  rw [headerBytes, leBytes_two, leBytes_one, leBytes_two]
  rfl

/-- A frame is its payload and seven bytes of overhead (42_codec.md R94). -/
@[simp] theorem frameBytes_length (id : Half) (cnt : Byte) (n : Half) (p : List Byte) :
    (frameBytes id cnt n p).length = 7 + p.length := by
  simp only [frameBytes, headerBytes_eq, leBytes_two, List.length_append, List.length_cons,
    List.length_nil]
  omega

/-! ### Loads from known bytes -/

/-- A load from inside valid bytes `f` at FBUF's start is that part of `f`. -/
theorem State.loadFrame_of_bytes {f : List Byte} (hb : ∀ k < f.length, s.fbuf.read k = f[k]?)
    {a n : Nat} (h : a + n ≤ f.length) : s.loadFrame a n = .ok ((f.drop a).take n) := by
  refine State.loadFrame_eq_ok.mpr ⟨by simp; omega, fun k hk => ?_⟩
  rw [hb (a + k) (by omega), List.getElem?_take, if_pos hk, List.getElem?_drop]

/-- A load meets its first invalid byte. -/
theorem State.loadFrame_of_invalid {a n x : Nat} (h1 : a ≤ x) (h2 : x < a + n)
    (hx : s.fbuf.read x = none) (hy : ∀ y, a ≤ y → y < x → s.fbuf.read y ≠ none) :
    s.loadFrame a n = .error ⟨.uninitRead, BitVec.ofNat 32 (0x10000 + x)⟩ :=
  State.loadFrame_eq_error.mpr
    ⟨x, rfl, h1, h2, hx, fun y p q => Option.isSome_iff_ne_none.mpr (hy y p q)⟩

/-- A load of valid bytes answers. -/
theorem State.loadFrame_of_valid {a n : Nat}
    (hy : ∀ y, a ≤ y → y < a + n → s.fbuf.read y ≠ none) : ∃ bs, s.loadFrame a n = .ok bs := by
  cases hl : s.loadFrame a n with
  | ok bs => exact ⟨bs, rfl⟩
  | error e =>
    obtain ⟨x, _, h1, h2, h3, _⟩ := State.loadFrame_eq_error.mp hl
    exact absurd h3 (hy x h1 h2)

/-- PBUF's loads likewise. -/
theorem State.loadPayload_of_invalid {a n x : Nat} (h1 : a ≤ x) (h2 : x < a + n)
    (hx : s.pbuf.read x = none) (hy : ∀ y, a ≤ y → y < x → s.pbuf.read y ≠ none) :
    s.loadPayload a n = .error ⟨.uninitRead, BitVec.ofNat 32 (0x30000 + x)⟩ :=
  State.loadPayload_eq_error.mpr
    ⟨x, rfl, h1, h2, hx, fun y p q => Option.isSome_iff_ne_none.mpr (hy y p q)⟩

/-! ### DECODE -/

/-- LeRead of two bytes as a 16-bit field (42_codec.md R94). -/
theorem leValue_pair_setWidth (a b : Byte) : (leValue [a, b]).setWidth 16 = (b ++ a : BitVec 16) := by
  apply BitVec.eq_of_getLsbD_eq
  intro i hi
  rw [BitVec.getLsbD_setWidth, leValue_getLsbD _ _ (by omega), BitVec.getLsbD_append]
  simp only [hi, decide_true, Bool.true_and]
  by_cases h : i < 8
  · rw [if_pos h, show i / 8 = 0 by omega, show i % 8 = i by omega]; rfl
  · rw [if_neg h, show i / 8 = 1 by omega, show i % 8 = i - 8 by omega]; rfl

/-- Step 1 of DECODE (42_codec.md R98). -/
theorem decodeBody_of_flen {l : Extent} (hl : s.flen = some l) :
    decodeBody s = if l.toNat < 7 then .ok (s.failing .tooShort) else decodeHeader s l := by
  rw [decodeBody, hl]
  rfl

/-- Steps 2 and 3 of DECODE on a valid header `h` (42_codec.md R98). -/
theorem decodeHeader_of_bytes {l : Extent} {a b c d e : Byte}
    (hb : ∀ k < 5, s.fbuf.read k = [a, b, c, d, e][k]?) :
    decodeHeader s l = if d.toNat + 256 * e.toNat ≠ l.toNat - 7 then .ok (s.failing .lenMismatch)
      else decodeChecked s (leValue [a, b]) (leValue [c]) (leValue [d, e]) := by
  have load : ∀ x n, x + n ≤ 5 → s.leReadFrame x n = .ok (leValue (([a, b, c, d, e].drop x).take n)) := by
    intro x n h
    rw [State.leReadFrame, State.loadFrame_of_bytes (f := [a, b, c, d, e]) hb h]
  rw [decodeHeader, load 0 2 (by omega), except_ok_bind, load 2 1 (by omega), except_ok_bind,
    load 3 2 (by omega), except_ok_bind, ← leValue_pair_toNat]
  rfl

/-- Steps 4 to 7 of DECODE on the covered bytes and the two bytes after them (42_codec.md R98). -/
theorem decodeChecked_of_loads {id cnt dl : Word} {cs : List Byte} {x y : Byte}
    (hc : s.loadFrame 0 (5 + dl.toNat) = .ok cs) (ht : s.loadFrame (5 + dl.toNat) 2 = .ok [x, y]) :
    decodeChecked s id cnt dl =
      if (crcValue cs).toNat ≠ x.toNat + 256 * y.toNat then .ok (s.failing .crcMismatch)
      else .ok (s.delivering (id.setWidth 16) (cnt.setWidth 8) (dl.setWidth 16) (cs.drop 5)) := by
  have e : ((crcValue cs).setWidth 32 = leValue [x, y]) ↔
      (crcValue cs).toNat = x.toNat + 256 * y.toNat := by
    rw [← BitVec.toNat_inj, leValue_pair_toNat, BitVec.toNat_setWidth_of_le (by omega)]
  simp only [decodeChecked, Config.hdrBytes, Config.crcBytes, hc, State.leReadFrame, ht,
    except_ok_bind, ne_eq, e]

end Sys2Proof.Machine
end

