-- ==== Sys2Proof/Laws/Crc.lean ====
section
/-! SUPPORT. The algebra of CrcStep: linear over GF(2) and injective in the register and in the byte. -/

namespace Sys2Proof.Machine

/-- CrcStep's bit rule, bit by bit of the register it leaves (40_crc.md R78). -/
theorem crcBit_getLsbD (r : Half) (b : Bool) (i : Nat) (hi : i < 16) :
    (crcBit r b).getLsbD i =
      ((decide (0 < i) && r.getLsbD (i - 1)) ^^
        ((r.getLsbD 15 ^^ b) && Config.poly.getLsbD i)) := by
  have hfb : (r.setWidth 17 <<< 1).getLsbD 16 = r.getLsbD 15 := by
    simp
  have hbit : (r.setWidth 17 <<< 1).getLsbD i = (decide (0 < i) && r.getLsbD (i - 1)) := by
    simp only [BitVec.getLsbD_shiftLeft, BitVec.getLsbD_setWidth]
    by_cases h : i < 1
    · simp [show i = 0 by omega]
    · simp [h, show i < 17 by omega, show i - 1 < 17 by omega, show 0 < i by omega]
  simp only [crcBit, hfb]
  cases r.getLsbD 15 ^^ b
  · simp only [Bool.false_eq_true, if_false, BitVec.getLsbD_setWidth, hbit, Bool.false_and,
      Bool.xor_false, hi, decide_true, Bool.true_and]
  · simp only [if_true, BitVec.getLsbD_setWidth, BitVec.getLsbD_xor, hbit, Bool.true_and, hi,
      decide_true, show i < 17 by omega]

/-- XOR of two bits fed and two registers is XOR of the results (40_crc.md R82). -/
theorem crcBit_xor (r q : Half) (b c : Bool) :
    crcBit (r ^^^ q) (b ^^ c) = crcBit r b ^^^ crcBit q c := by
  apply BitVec.eq_of_getLsbD_eq
  intro i hi
  rw [BitVec.getLsbD_xor, crcBit_getLsbD _ _ _ hi, crcBit_getLsbD _ _ _ hi, crcBit_getLsbD _ _ _ hi,
    BitVec.getLsbD_xor, BitVec.getLsbD_xor]
  cases r.getLsbD 15 <;> cases q.getLsbD 15 <;> cases b <;> cases c <;>
    cases r.getLsbD (i - 1) <;> cases q.getLsbD (i - 1) <;> cases Config.poly.getLsbD i <;>
    cases decide (0 < i) <;> rfl

theorem crcStep_xor (r q : Half) (b c : Byte) :
    crcStep (r ^^^ q) (b ^^^ c) = crcStep r b ^^^ crcStep q c := by
  simp only [crcStep, List.foldl_cons, List.foldl_nil, BitVec.getLsbD_xor, crcBit_xor]

/-- A zero bit fed to a register gives zero only from zero: G(x) has a constant term. -/
theorem crcBit_false_eq_zero {r : Half} (h : crcBit r false = 0#16) : r = 0#16 := by
  have bits : ∀ i, i < 16 → ((decide (0 < i) && r.getLsbD (i - 1)) ^^
      (r.getLsbD 15 && Config.poly.getLsbD i)) = false := fun i hi => by
    rw [← Bool.xor_false (r.getLsbD 15), ← crcBit_getLsbD r false i hi, h, BitVec.getLsbD_zero]
  have h15 : r.getLsbD 15 = false := by
    have h0 : Config.poly.getLsbD 0 = true := by decide
    have := bits 0 (by omega)
    rw [h0] at this
    simpa only [Nat.lt_irrefl, decide_false, Bool.false_and, Bool.false_xor, Bool.and_true] using this
  apply BitVec.eq_of_getLsbD_eq
  intro i hi
  rw [BitVec.getLsbD_zero]
  by_cases hi15 : i = 15
  · rw [hi15, h15]
  · have := bits (i + 1) (by omega)
    rw [h15] at this
    simpa only [Nat.zero_lt_succ, decide_true, Bool.true_and, Bool.false_and, Bool.xor_false,
      Nat.add_sub_cancel] using this

theorem crcStep_zero_eq_zero {r : Half} (h : crcStep r 0#8 = 0#16) : r = 0#16 := by
  simp only [crcStep, List.foldl_cons, List.foldl_nil, BitVec.getLsbD_zero] at h
  iterate 8 replace h := crcBit_false_eq_zero h
  exact h

/-- For a fixed byte CrcStep loses no information about the register. -/
theorem crcStep_left_injective {r q : Half} {b : Byte} (h : crcStep r b = crcStep q b) : r = q := by
  have : crcStep (r ^^^ q) 0#8 = 0#16 := by
    have := crcStep_xor r q b b
    rw [BitVec.xor_self] at this
    rw [this, h, BitVec.xor_self]
  exact BitVec.xor_eq_zero_iff.mp (crcStep_zero_eq_zero this)

/-- Feeding a byte is feeding a zero byte to the register with the byte in its high half. -/
theorem crcStep_eq_shifted (r : Half) (b : Byte) :
    crcStep r b = crcStep (r ^^^ (b.setWidth 16 <<< 8)) 0#8 := by
  have h : ∀ b : Byte, crcStep 0#16 b = crcStep (b.setWidth 16 <<< 8) 0#8 := by decide +kernel
  have e1 := crcStep_xor r 0#16 0#8 b
  have e2 := crcStep_xor r (b.setWidth 16 <<< 8) 0#8 0#8
  rw [BitVec.xor_zero, BitVec.zero_xor] at e1
  rw [BitVec.xor_zero] at e2
  rw [e1, e2, h]

/-- For a fixed register CrcStep tells any two bytes apart. -/
theorem crcStep_right_injective {r : Half} {b c : Byte} (h : crcStep r b = crcStep r c) : b = c := by
  rw [crcStep_eq_shifted r b, crcStep_eq_shifted r c] at h
  have := crcStep_left_injective h
  have h2 : b.setWidth 16 <<< 8 = c.setWidth 16 <<< 8 := BitVec.xor_right_inj r |>.mp this
  apply BitVec.eq_of_getLsbD_eq
  intro i hi
  have := congrArg (fun v => BitVec.getLsbD v (i + 8)) h2
  simpa [show i + 8 < 16 by omega, show i < 16 by omega] using this

theorem crcFold_left_injective {r q : Half} {bs : List Byte}
    (h : bs.foldl crcStep r = bs.foldl crcStep q) : r = q := by
  induction bs generalizing r q with
  | nil => exact h
  | cons b bs ih => exact crcStep_left_injective (ih h)

/-- A changed byte changes CrcOver, wherever it stands (42_codec.md R107, the middle case). -/
theorem crcOver_set_ne {bs : List Byte} {j : Nat} {b : Byte} (hj : j < bs.length) (hne : b ≠ bs[j]) :
    crcOver (bs.set j b) ≠ crcOver bs := by
  intro h
  have h' : ∀ (r : Half), (bs.set j b).foldl crcStep r ≠ bs.foldl crcStep r := by
    clear h
    induction bs generalizing j with
    | nil => simp at hj
    | cons a bs ih =>
      intro r
      cases j with
      | zero =>
        intro h
        exact hne (crcStep_right_injective (crcFold_left_injective h))
      | succ j =>
        exact ih (by simpa using hj) (by simpa using hne) _
  exact h' _ h

theorem crcFinalize_inj {r q : Half} : crcFinalize r = crcFinalize q ↔ r = q :=
  BitVec.xor_left_inj _

end Sys2Proof.Machine
end

