-- ==== Sys2Proof/Laws/Exec.lean ====
section
/-! SUPPORT. What an instruction can do, said once: every instruction but BUS_RD is one transaction
over a body, and a body that answers has one of the effects listed here. -/

namespace Sys2Proof.Machine

variable {s t : State}

/-- The checks and writes of a command; a host transaction is none. -/
def commandBody : Instr → State → Except Raised State
  | .crcInit, s => .ok { s with crcReg := Config.seed, crcState := .accum }
  | .crcAdd b, s =>
    if s.crcState = .final then .error ⟨.crcReuse, crcAddWord b⟩
    else .ok { s with crcReg := crcStep s.crcReg b }
  | .crcFinal, s =>
    if s.crcState = .final then .error ⟨.crcReuse, crcFinalWord⟩
    else .ok { s with crcVal := some (crcFinalize s.crcReg), crcState := .final }
  | .curRead n, s => curReadBody n s
  | .curWrite n, s => curWriteBody n s
  | .encode, s => encodeBody s
  | .decode, s => decodeBody s
  | .busRd _ _, s => .ok s
  | .busWr _ _ _, s => .ok s

/-- The checks and writes of Execute(w) (30_encoding.md R72). -/
def executeBody (w : Word) (s : State) : Except Raised State :=
  match decodeCmd w with
  | .ok i => commandBody i s
  | .error _ => .error ⟨.illegalCmd, w⟩

/-- The checks and writes of a BUS_WR (20_memory.md R56). -/
def writeBody (size : AccessSize) (addr : Addr) (w : Word) (s : State) : Except Raised State :=
  if place size addr = some (.register .cmd) then executeBody w s
  else busWriteBody (place size addr) addr w s

theorem exec_command {i : Instr} (h : i.isCommand = true) (s : State) :
    exec i s = transact s (commandBody i s) := by
  cases i <;> first | rfl | simp [Instr.isCommand] at h

theorem execute_eq (w : Word) (s : State) : execute w s = transact s (executeBody w s) := by
  cases h : decodeCmd w with
  | ok i =>
    rw [execute_of_decode h, exec_command (decodeCmd_isCommand h), executeBody, h]
  | error e => rw [execute_of_error h, executeBody, h]

theorem exec_busWr (size : AccessSize) (addr : Addr) (w : Word) (s : State) :
    exec (.busWr size addr w) s = transact s (writeBody size addr w s) := by
  show execBusWr size addr w s = _
  by_cases hp : place size addr = some (.register .cmd)
  · obtain ⟨rfl, rfl⟩ := place_eq_register.mp hp
    rw [writeBody, if_pos hp, ← execute_eq]
    by_cases hs : s.faultCause = .none
    · exact execBusWr_cmd hs w
    · rw [execBusWr_of_faulted hs, execute_eq, transact_of_faulted hs]
  · rw [execBusWr_of_ne_cmd w hp, writeBody, if_neg hp]

/-- A word whose OP and ARG decode to no command (30_encoding.md R69, R70). -/
theorem executeBody_of_error {w : Word} {e : DecodeError} (h : decodeCmd w = .error e) :
    executeBody w s = .error ⟨.illegalCmd, w⟩ := by
  rw [executeBody, h]

/-- All a command that completes can write (40_crc.md R83 to R85, 41_cursor.md R91, R92, 42_codec.md
R97, R98). -/
theorem commandBody_ok_cases {i : Instr} (hc : i.isCommand = true) (h : commandBody i s = .ok t) :
    (i = .crcInit ∧ t = { s with crcReg := Config.seed, crcState := .accum }) ∨
    (∃ b, i = .crcAdd b ∧ s.crcState ≠ .final ∧ t = { s with crcReg := crcStep s.crcReg b }) ∨
    (i = .crcFinal ∧ s.crcState ≠ .final ∧
      t = { s with crcVal := some (crcFinalize s.crcReg), crcState := .final }) ∨
    (∃ n l bs, i = .curRead n ∧ s.flen = some l ∧ s.off.toNat + n.toNat ≤ cursorBound l ∧
      t = { s with data := some (leValue bs), off := advanced s.off n.toNat }) ∨
    (∃ n v l, i = .curWrite n ∧ s.data = some v ∧ s.flen = some l ∧
      s.off.toNat + n.toNat ≤ cursorBound l ∧
      t = { s.storeFrame s.off.toNat (leBytes n.toNat v) with off := advanced s.off n.toNat }) ∨
    (∃ id cnt n p, i = .encode ∧ s.len = some n ∧ p.length = n.toNat ∧
      t = { s.storeFrame 0 (frameBytes id cnt n p) with
        flen := some (BitVec.ofNat 17 (Config.overhead + n.toNat)) }) ∨
    (∃ k, i = .decode ∧ s.flen.isSome = true ∧ k ≠ .none ∧ k ≠ .ok ∧ t = s.failing k) ∨
    (∃ id cnt n p, i = .decode ∧ s.flen.isSome = true ∧ p.length = n.toNat ∧
      t = s.delivering id cnt n p) := by
  cases i with
  | crcInit => left; exact ⟨rfl, (Except.ok.inj h).symm⟩
  | crcAdd b =>
    right; left
    simp only [commandBody] at h
    split at h
    · cases h
    · exact ⟨b, rfl, by assumption, (Except.ok.inj h).symm⟩
  | crcFinal =>
    right; right; left
    simp only [commandBody] at h
    split at h
    · cases h
    · exact ⟨rfl, by assumption, (Except.ok.inj h).symm⟩
  | curRead n =>
    obtain ⟨_, l, hl, hb, bs, _, ht⟩ := curReadBody_eq_ok.mp h
    exact .inr (.inr (.inr (.inl ⟨n, l, bs, rfl, hl, hb, ht⟩)))
  | curWrite n =>
    obtain ⟨_, v, l, hv, hl, hb, ht⟩ := curWriteBody_eq_ok.mp h
    exact .inr (.inr (.inr (.inr (.inl ⟨n, v, l, rfl, hv, hl, hb, ht⟩))))
  | encode =>
    obtain ⟨id, cnt, n, p, _, _, hn, hp, ht⟩ := encodeBody_eq_ok.mp h
    exact .inr (.inr (.inr (.inr (.inr (.inl
      ⟨id, cnt, n, p, rfl, hn, (State.loadPayload_eq_ok.mp hp).1, ht⟩)))))
  | decode =>
    right; right; right; right; right; right
    obtain ⟨l, hl, ⟨_, rfl⟩ | ⟨_, h⟩⟩ := decodeBody_ok_cases h
    · exact .inl ⟨_, rfl, by simp [hl], by simp, by simp, rfl⟩
    obtain ⟨id, cnt, dl, _, _, hdl, ⟨_, rfl⟩ | ⟨heq, h⟩⟩ := decodeHeader_ok_cases h
    · exact .inl ⟨_, rfl, by simp [hl], by simp, by simp, rfl⟩
    obtain ⟨cs, _, hcs, _, ⟨_, rfl⟩ | ⟨_, rfl⟩⟩ := decodeChecked_ok_cases h
    · exact .inl ⟨_, rfl, by simp [hl], by simp, by simp, rfl⟩
    · refine .inr ⟨_, _, _, _, rfl, by simp [hl], ?_, rfl⟩
      have hlen := (State.loadFrame_eq_ok.mp hcs).1
      have h16 := State.leReadFrame_two_lt hdl
      rw [List.length_drop, hlen, BitVec.toNat_setWidth, Nat.mod_eq_of_lt h16]
      omega
  | busRd _ _ => simp [Instr.isCommand] at hc
  | busWr _ _ _ => simp [Instr.isCommand] at hc

/-- All a BUS_WR that completes can write: its command's effect, or the place it names
(20_memory.md R56). -/
theorem writeBody_ok_cases {size : AccessSize} {addr : Addr} {w : Word}
    (h : writeBody size addr w s = .ok t) :
    (size = .word ∧ addr = 0x00000#20 ∧ ∃ i, i.isCommand = true ∧ decodeCmd w = .ok i ∧
      commandBody i s = .ok t) ∨
    (size = .word ∧ addr = 0x00010#20 ∧ t = { s with id := some (w.setWidth 16) }) ∨
    (size = .word ∧ addr = 0x00014#20 ∧ t = { s with cnt := some (w.setWidth 8) }) ∨
    (size = .word ∧ addr = 0x00018#20 ∧ t = { s with len := some (w.setWidth 16) }) ∨
    (size = .word ∧ addr = 0x0001C#20 ∧ t = { s with flen := some (w.setWidth 17) }) ∨
    (size = .word ∧ addr = 0x00020#20 ∧ t = { s with off := w.setWidth 17 }) ∨
    (size = .word ∧ addr = 0x00024#20 ∧ t = { s with data := some w }) ∨
    (∃ a, size = .byte ∧ a < 65542 ∧ addr.toNat = 0x10000 + a ∧
      t = s.storeFrame a [w.setWidth 8]) ∨
    (∃ a, size = .byte ∧ a < 65535 ∧ addr.toNat = 0x30000 + a ∧
      t = s.storePayload a [w.setWidth 8]) := by
  unfold writeBody at h
  split at h
  · rename_i hp
    obtain ⟨rfl, rfl⟩ := place_eq_register.mp hp
    unfold executeBody at h
    split at h
    · rename_i i hi
      exact .inl ⟨rfl, rfl, i, decodeCmd_isCommand hi, hi, h⟩
    · cases h
  · rename_i hp
    cases hq : place size addr with
    | none => rw [hq] at h; cases h
    | some q =>
      rw [hq] at h
      cases q with
      | register r =>
        obtain ⟨rfl, rfl⟩ := place_eq_register.mp hq
        rcases regWriteBody_ok_cases h with ⟨rfl, _, ht⟩ | ⟨rfl, _, ht⟩ | ⟨rfl, _, ht⟩ | ⟨rfl, _, ht⟩ |
          ⟨rfl, _, ht⟩ | ⟨rfl, ht⟩ | ⟨rfl, _⟩
        · exact .inr (.inl ⟨rfl, rfl, ht⟩)
        · exact .inr (.inr (.inl ⟨rfl, rfl, ht⟩))
        · exact .inr (.inr (.inr (.inl ⟨rfl, rfl, ht⟩)))
        · exact .inr (.inr (.inr (.inr (.inl ⟨rfl, rfl, ht⟩))))
        · exact .inr (.inr (.inr (.inr (.inr (.inl ⟨rfl, rfl, ht⟩)))))
        · exact .inr (.inr (.inr (.inr (.inr (.inr (.inl ⟨rfl, rfl, ht⟩))))))
        · exact absurd hq hp
      | frame a =>
        obtain ⟨rfl, ha, hea⟩ := place_eq_frame.mp hq
        exact .inr (.inr (.inr (.inr (.inr (.inr (.inr (.inl
          ⟨a, rfl, ha, hea, (Except.ok.inj h).symm⟩)))))))
      | payload a =>
        obtain ⟨rfl, ha, hea⟩ := place_eq_payload.mp hq
        exact .inr (.inr (.inr (.inr (.inr (.inr (.inr (.inr
          ⟨a, rfl, ha, hea, (Except.ok.inj h).symm⟩)))))))

/-- What the information word of an UNINIT_READ names (60_exceptions.md R114): a register or a buffer
byte that is invalid. -/
def State.invalidAt (s : State) (info : Word) : Prop :=
  (s.id = none ∧ info = 0x10#32) ∨ (s.cnt = none ∧ info = 0x14#32) ∨
  (s.len = none ∧ info = 0x18#32) ∨ (s.flen = none ∧ info = 0x1C#32) ∨
  (s.data = none ∧ info = 0x24#32) ∨ (s.crcVal = none ∧ info = 0x2C#32) ∨
  (∃ x, x < 65542 ∧ s.fbuf.read x = none ∧ info = BitVec.ofNat 32 (0x10000 + x)) ∨
  (∃ x, x < 65535 ∧ s.pbuf.read x = none ∧ info = BitVec.ofNat 32 (0x30000 + x))

theorem State.invalidAt_of_loadFrame {a n : Nat} {e : Raised} (h : s.loadFrame a n = .error e)
    (hfit : a + n ≤ 65542) : e.cause = .uninitRead ∧ s.invalidAt e.info := by
  obtain ⟨x, rfl, _, h2, h3, _⟩ := State.loadFrame_eq_error.mp h
  exact ⟨rfl, .inr (.inr (.inr (.inr (.inr (.inr (.inl ⟨x, by omega, h3, rfl⟩))))))⟩

theorem State.invalidAt_of_loadPayload {a n : Nat} {e : Raised} (h : s.loadPayload a n = .error e)
    (hfit : a + n ≤ 65535) : e.cause = .uninitRead ∧ s.invalidAt e.info := by
  obtain ⟨x, rfl, _, h2, h3, _⟩ := State.loadPayload_eq_error.mp h
  exact ⟨rfl, .inr (.inr (.inr (.inr (.inr (.inr (.inr ⟨x, by omega, h3, rfl⟩))))))⟩

/-- All a command that faults can record (60_exceptions.md R113, R114). -/
theorem commandBody_error_cases {i : Instr} {e : Raised} (h : commandBody i s = .error e) :
    (e.cause = .crcReuse ∧ s.crcState = .final ∧ (i = .crcFinal ∨ ∃ b, i = .crcAdd b) ∧
      encodeInstr i = .command e.info) ∨
    (e.cause = .cursorWidth ∧ encodeInstr i = .command e.info ∧
      ∃ n, (i = .curRead n ∨ i = .curWrite n) ∧ ¬ (1 ≤ n.toNat ∧ n.toNat ≤ 4)) ∨
    (e.cause = .cursorBounds ∧ encodeInstr i = .command e.info ∧
      ∃ n l, (i = .curRead n ∨ i = .curWrite n) ∧ s.flen = some l ∧
        cursorBound l < s.off.toNat + n.toNat) ∨
    (e.cause = .uninitRead ∧ s.invalidAt e.info ∧
      (i = .encode ∨ i = .decode ∨ ∃ n, i = .curRead n ∨ i = .curWrite n)) := by
  have reg : ∀ {i : Instr} {info : Word} {e : Raised}, e = ⟨.uninitRead, info⟩ → s.invalidAt info →
      e.cause = .uninitRead ∧ s.invalidAt e.info := by
    rintro i info e rfl h; exact ⟨rfl, h⟩
  cases i with
  | crcInit => cases h
  | crcAdd b =>
    simp only [commandBody] at h
    split at h
    · injection h with h; subst h
      exact .inl ⟨rfl, by assumption, .inr ⟨b, rfl⟩, rfl⟩
    · cases h
  | crcFinal =>
    simp only [commandBody] at h
    split at h
    · injection h with h; subst h
      exact .inl ⟨rfl, by assumption, .inl rfl, rfl⟩
    · cases h
  | curRead n =>
    rcases curReadBody_eq_error.mp h with ⟨hn, rfl⟩ | ⟨_, ⟨hf, rfl⟩ | ⟨l, hl, ⟨hb, rfl⟩ | ⟨hb, hld⟩⟩⟩
    · exact .inr (.inl ⟨rfl, rfl, n, .inl rfl, hn⟩)
    · exact .inr (.inr (.inr ⟨rfl, .inr (.inr (.inr (.inl ⟨hf, rfl⟩))), .inr (.inr ⟨n, .inl rfl⟩)⟩))
    · exact .inr (.inr (.inl ⟨rfl, rfl, n, l, .inl rfl, hl, Nat.lt_of_not_le hb⟩))
    · obtain ⟨h1, h2⟩ := State.invalidAt_of_loadFrame hld (le_trans hb (Nat.min_le_right _ _))
      exact .inr (.inr (.inr ⟨h1, h2, .inr (.inr ⟨n, .inl rfl⟩)⟩))
  | curWrite n =>
    rcases curWriteBody_eq_error.mp h with ⟨hn, rfl⟩ | ⟨_, ⟨hd, rfl⟩ | ⟨_, ⟨hf, rfl⟩ | ⟨l, hl, hb, rfl⟩⟩⟩
    · exact .inr (.inl ⟨rfl, rfl, n, .inr rfl, hn⟩)
    · exact .inr (.inr (.inr ⟨rfl, .inr (.inr (.inr (.inr (.inl ⟨hd, rfl⟩)))),
        .inr (.inr ⟨n, .inr rfl⟩)⟩))
    · exact .inr (.inr (.inr ⟨rfl, .inr (.inr (.inr (.inl ⟨hf, rfl⟩))), .inr (.inr ⟨n, .inr rfl⟩)⟩))
    · exact .inr (.inr (.inl ⟨rfl, rfl, n, l, .inr rfl, hl, Nat.lt_of_not_le hb⟩))
  | encode =>
    refine .inr (.inr (.inr ?_))
    rcases encodeBody_eq_error.mp h with ⟨h1, rfl⟩ | ⟨_, ⟨h1, rfl⟩ | ⟨_, ⟨h1, rfl⟩ | ⟨n, _, hld⟩⟩⟩
    · exact ⟨rfl, .inl ⟨h1, rfl⟩, .inl rfl⟩
    · exact ⟨rfl, .inr (.inl ⟨h1, rfl⟩), .inl rfl⟩
    · exact ⟨rfl, .inr (.inr (.inl ⟨h1, rfl⟩)), .inl rfl⟩
    · have := n.isLt
      obtain ⟨h1, h2⟩ := State.invalidAt_of_loadPayload hld (by omega)
      exact ⟨h1, h2, .inl rfl⟩
  | decode =>
    refine .inr (.inr (.inr ?_))
    rcases decodeBody_error_cases h with ⟨h1, rfl⟩ | ⟨a, n, hfit, hld⟩
    · exact ⟨rfl, .inr (.inr (.inr (.inl ⟨h1, rfl⟩))), .inr (.inl rfl)⟩
    · obtain ⟨h1, h2⟩ := State.invalidAt_of_loadFrame hld hfit
      exact ⟨h1, h2, .inr (.inl rfl)⟩
  | busRd _ _ => cases h
  | busWr _ _ _ => cases h

/-- A register write that faults (20_memory.md R52 item 4, R56). -/
theorem regWriteBody_error_cases {r : Reg} {w : Word} {e : Raised}
    (h : regWriteBody r w s = .error e) :
    (e = ⟨.busError, addrInfo (regAddr r)⟩ ∧
      (r = .status ∨ r = .fault ∨ r = .faultInfo ∨ r = .crcReg ∨ r = .crcVal)) ∨
    (e = ⟨.fieldRange, addrInfo (regAddr r)⟩ ∧
      ((r = .id ∧ 2 ^ 16 ≤ w.toNat) ∨ (r = .cnt ∧ 2 ^ 8 ≤ w.toNat) ∨ (r = .len ∧ 2 ^ 16 ≤ w.toNat) ∨
        (r = .flen ∧ 2 ^ 17 ≤ w.toNat) ∨ (r = .off ∧ 2 ^ 17 ≤ w.toNat))) := by
  cases r <;> simp only [regWriteBody, except_map_eq_error, inField_eq_error, reduceCtorEq,
    Except.error.injEq, Nat.not_lt] at h <;> simp only [reduceCtorEq, false_and, true_and, or_false,
    false_or, and_false, and_true, or_true] <;> exact h.symm

/-- All a BUS_WR that faults can record (60_exceptions.md R113, R114). -/
theorem writeBody_error_cases {size : AccessSize} {addr : Addr} {w : Word} {e : Raised}
    (h : writeBody size addr w s = .error e) :
    (e = ⟨.busError, addrInfo addr⟩ ∧ (place size addr = none ∨
      (size = .word ∧ (addr = 0x04#20 ∨ addr = 0x08#20 ∨ addr = 0x0C#20 ∨ addr = 0x28#20 ∨
        addr = 0x2C#20)))) ∨
    (e = ⟨.fieldRange, addrInfo addr⟩ ∧ size = .word ∧
      ((addr = 0x10#20 ∧ 2 ^ 16 ≤ w.toNat) ∨ (addr = 0x14#20 ∧ 2 ^ 8 ≤ w.toNat) ∨
        (addr = 0x18#20 ∧ 2 ^ 16 ≤ w.toNat) ∨ (addr = 0x1C#20 ∧ 2 ^ 17 ≤ w.toNat) ∨
        (addr = 0x20#20 ∧ 2 ^ 17 ≤ w.toNat))) ∨
    (size = .word ∧ addr = 0x00000#20 ∧ e = ⟨.illegalCmd, w⟩ ∧ ∃ d, decodeCmd w = .error d) ∨
    (size = .word ∧ addr = 0x00000#20 ∧ ∃ i, i.isCommand = true ∧ decodeCmd w = .ok i ∧
      commandBody i s = .error e) := by
  unfold writeBody at h
  split at h
  · rename_i hp
    obtain ⟨rfl, rfl⟩ := place_eq_register.mp hp
    unfold executeBody at h
    split at h
    · rename_i i hi
      exact .inr (.inr (.inr ⟨rfl, rfl, i, decodeCmd_isCommand hi, hi, h⟩))
    · rename_i d hd
      injection h with h
      exact .inr (.inr (.inl ⟨rfl, rfl, h.symm, d, hd⟩))
  · cases hq : place size addr with
    | none =>
      rw [hq] at h
      injection h with h
      exact .inl ⟨h.symm, .inl rfl⟩
    | some q =>
      rw [hq] at h
      cases q with
      | register r =>
        obtain ⟨rfl, rfl⟩ := place_eq_register.mp hq
        rcases regWriteBody_error_cases h with ⟨rfl, hr⟩ | ⟨rfl, hr⟩
        · refine .inl ⟨rfl, .inr ⟨rfl, ?_⟩⟩
          rcases hr with rfl | rfl | rfl | rfl | rfl <;> simp [regAddr]
        · refine .inr (.inl ⟨rfl, rfl, ?_⟩)
          rcases hr with ⟨rfl, hw⟩ | ⟨rfl, hw⟩ | ⟨rfl, hw⟩ | ⟨rfl, hw⟩ | ⟨rfl, hw⟩
          · exact .inl ⟨rfl, hw⟩
          · exact .inr (.inl ⟨rfl, hw⟩)
          · exact .inr (.inr (.inl ⟨rfl, hw⟩))
          · exact .inr (.inr (.inr (.inl ⟨rfl, hw⟩)))
          · exact .inr (.inr (.inr (.inr ⟨rfl, hw⟩)))
      | frame a => cases h
      | payload a => cases h

/-- All a BUS_RD that faults can record (20_memory.md R54, R55). -/
theorem busReadValue_error_cases {size : AccessSize} {addr : Addr} {e : Raised}
    (h : busReadValue size addr s = .error e) :
    (e = ⟨.busError, addrInfo addr⟩ ∧ place size addr = none) ∨
    (e.cause = .uninitRead ∧ s.invalidAt e.info ∧ e.info = addrInfo addr) := by
  unfold busReadValue at h
  cases hq : place size addr with
  | none =>
    rw [hq] at h
    injection h with h
    exact .inl ⟨h.symm, rfl⟩
  | some q =>
    rw [hq] at h
    right
    cases q with
    | register r =>
      obtain ⟨rfl, rfl⟩ := place_eq_register.mp hq
      cases r <;> simp only [readReg, except_map_eq_error, validated_eq_error, reduceCtorEq] at h
      all_goals
        obtain ⟨h, rfl⟩ := h
        refine ⟨rfl, ?_, rfl⟩
        simp [State.invalidAt, addrInfo, regAddr, h]
    | frame a =>
      obtain ⟨_, ha, hea⟩ := place_eq_frame.mp hq
      have h := State.leReadFrame_eq_error.mp h
      obtain ⟨h1, h2⟩ := State.invalidAt_of_loadFrame h (by omega)
      obtain ⟨x, rfl, hx1, hx2, _⟩ := State.loadFrame_eq_error.mp h
      refine ⟨h1, h2, ?_⟩
      rw [show x = a by omega]
      apply BitVec.eq_of_toNat_eq
      simp only [fbufInfo, addrInfo, Config.fbufBase, BitVec.toNat_ofNat, BitVec.toNat_setWidth, hea]
    | payload a =>
      obtain ⟨_, ha, hea⟩ := place_eq_payload.mp hq
      have h := except_map_eq_error.mp h
      obtain ⟨h1, h2⟩ := State.invalidAt_of_loadPayload h (by omega)
      obtain ⟨x, rfl, hx1, hx2, _⟩ := State.loadPayload_eq_error.mp h
      refine ⟨h1, h2, ?_⟩
      rw [show x = a by omega]
      apply BitVec.eq_of_toNat_eq
      simp only [pbufInfo, addrInfo, Config.pbufBase, BitVec.toNat_ofNat, BitVec.toNat_setWidth, hea]

/-- Which body an instruction's fault comes from. -/
def faultsWith (i : Instr) (s : State) (e : Raised) : Prop :=
  (∃ size addr, i = .busRd size addr ∧ busReadValue size addr s = .error e) ∨
  (i.isCommand = true ∧ commandBody i s = .error e) ∨
  (∃ size addr w, i = .busWr size addr w ∧ writeBody size addr w s = .error e)

/-- A recorded fault has a cause. -/
theorem faultsWith_cause {i : Instr} {e : Raised} (h : faultsWith i s e) : e.cause ≠ .none := by
  have cmd : ∀ {j : Instr}, commandBody j s = .error e → e.cause ≠ .none := by
    intro j h
    rcases commandBody_error_cases h with ⟨h, _⟩ | ⟨h, _⟩ | ⟨h, _⟩ | ⟨h, _⟩ <;> rw [h] <;> simp
  rcases h with ⟨size, addr, _, h⟩ | ⟨_, h⟩ | ⟨size, addr, w, _, h⟩
  · rcases busReadValue_error_cases h with ⟨rfl, _⟩ | ⟨h, _⟩
    · simp
    · rw [h]; simp
  · exact cmd h
  · rcases writeBody_error_cases h with ⟨rfl, _⟩ | ⟨rfl, _⟩ | ⟨_, _, rfl, _⟩ | ⟨_, _, _, _, _, h⟩
    · simp
    · simp
    · simp
    · exact cmd h

/-- All an instruction can do: return a value, nothing while faulted, record a fault, or the effect of
its body. -/
theorem exec_cases {i : Instr} (h : exec i s = .next t) :
    (∃ size addr v, i = .busRd size addr ∧ t = s.returning v) ∨
    (s.faultCause ≠ .none ∧ t = s) ∨
    (s.faultCause = .none ∧ ∃ e, faultsWith i s e ∧
      t = { s with faultCause := e.cause, faultInfo := e.info }) ∨
    (s.faultCause = .none ∧ i.isCommand = true ∧ commandBody i s = .ok t) ∨
    (s.faultCause = .none ∧ ∃ size addr w, i = .busWr size addr w ∧
      writeBody size addr w s = .ok t) := by
  by_cases hc : i.isCommand = true
  · rw [exec_command hc] at h
    rcases transact_cases h with h | ⟨hs, h⟩ | ⟨hs, e, he, h⟩
    · exact .inr (.inl h)
    · exact .inr (.inr (.inr (.inl ⟨hs, hc, h⟩)))
    · exact .inr (.inr (.inl ⟨hs, e, .inr (.inl ⟨hc, he⟩), h⟩))
  · cases i with
    | busRd size addr =>
      rcases execBusRd_cases h with ⟨v, h⟩ | ⟨hs, e, he, h⟩
      · exact .inl ⟨size, addr, v, rfl, h⟩
      · exact .inr (.inr (.inl ⟨hs, e, .inl ⟨size, addr, rfl, he⟩, h⟩))
    | busWr size addr w =>
      rw [exec_busWr] at h
      rcases transact_cases h with h | ⟨hs, h⟩ | ⟨hs, e, he, h⟩
      · exact .inr (.inl h)
      · exact .inr (.inr (.inr (.inr ⟨hs, size, addr, w, rfl, h⟩)))
      · exact .inr (.inr (.inl ⟨hs, e, .inr (.inr ⟨size, addr, w, rfl, he⟩), h⟩))
    | _ => exact absurd rfl hc

/-- All a step can do: wait, RESET, or the instruction of the next transaction (logs 1, 3, 12). -/
theorem step_cases (h : step s = .next t) :
    (s.host = [] ∧ t = s) ∨
    (∃ rest, s.host = .reset :: rest ∧ t = { State.reset with host := rest, reads := s.reads }) ∨
    (∃ d rest i, s.host = .transaction d :: rest ∧ decodeBus d = .ok i ∧
      exec i { s with host := rest } = .next t) := by
  unfold step at h
  cases hh : s.host with
  | nil =>
    have e : nextAction s = .wait := by rw [nextAction, hh]
    rw [e] at h
    injection h with h
    exact .inl ⟨rfl, h.symm⟩
  | cons a rest =>
    cases a with
    | reset =>
      have e : nextAction s = .reset { s with host := rest } := by rw [nextAction, hh]
      rw [e] at h
      injection h with h
      exact .inr (.inl ⟨rest, rfl, h.symm⟩)
    | transaction d =>
      cases hd : decodeBus d with
      | error e' =>
        have e : nextAction s = .refused (.notATransaction d) := by
          rw [nextAction, hh]; simp only [hd]
        rw [e] at h
        cases h
      | ok i =>
        have e : nextAction s = .run i { s with host := rest } := by
          rw [nextAction, hh]; simp only [hd]
        rw [e] at h
        exact .inr (.inr ⟨d, rest, i, rfl, hd, h⟩)

end Sys2Proof.Machine
end

