-- ==== Sys2Proof/Laws/PerInstr.lean ====
section
/-! SUPPORT. A fact about every instruction as syntax, one lemma per constructor: its encoding is in
its row of spec/opcode_table.json. -/

namespace Sys2Proof.Laws.TableRow

/-- The row's "mask" and "match" for a command. -/
def commandRow : Instr → Word × Word
  | .crcInit => (0xFFFFFFFF#32, 0x01000000#32)
  | .crcAdd _ => (0xFFFFFF00#32, 0x02000000#32)
  | .crcFinal => (0xFFFFFFFF#32, 0x03000000#32)
  | .curRead _ => (0xFFFFFFF8#32, 0x10000000#32)
  | .curWrite _ => (0xFFFFFFF8#32, 0x11000000#32)
  | .encode => (0xFFFFFFFF#32, 0x20000000#32)
  | .decode => (0xFFFFFFFF#32, 0x21000000#32)
  | .busRd _ _ => (0#32, 0#32)
  | .busWr _ _ _ => (0#32, 0#32)

/-- The row's "mask" and "match" for a host transaction. -/
def busRow : Instr → Descriptor × Descriptor
  | .busRd _ _ => (0xBFF00000FFFFFFFF#64, 0x0000000000000000#64)
  | .busWr _ _ _ => (0xBFF0000000000000#64, 0x8000000000000000#64)
  | .crcInit => (0#64, 0#64)
  | .crcAdd _ => (0#64, 0#64)
  | .crcFinal => (0#64, 0#64)
  | .curRead _ => (0#64, 0#64)
  | .curWrite _ => (0#64, 0#64)
  | .encode => (0#64, 0#64)
  | .decode => (0#64, 0#64)

/-- The encoding, under the row's mask, is the row's match. -/
def Statement (i : Instr) : Prop :=
  match encodeInstr i with
  | .command w => w &&& (commandRow i).1 = (commandRow i).2
  | .transaction d => d &&& (busRow i).1 = (busRow i).2

theorem crcInit : Statement .crcInit := by
  show crcInitWord &&& 0xFFFFFFFF#32 = 0x01000000#32
  decide

theorem crcAdd (b : Byte) : Statement (.crcAdd b) := by
  have : ∀ b : Byte, crcAddWord b &&& 0xFFFFFF00#32 = 0x02000000#32 := by decide +kernel
  exact this b

theorem crcFinal : Statement .crcFinal := by
  show crcFinalWord &&& 0xFFFFFFFF#32 = 0x03000000#32
  decide

theorem curRead (n : BitVec 3) : Statement (.curRead n) := by
  have : ∀ n : BitVec 3, curReadWord n &&& 0xFFFFFFF8#32 = 0x10000000#32 := by decide
  exact this n

theorem curWrite (n : BitVec 3) : Statement (.curWrite n) := by
  have : ∀ n : BitVec 3, curWriteWord n &&& 0xFFFFFFF8#32 = 0x11000000#32 := by decide
  exact this n

theorem encode : Statement .encode := by
  show encodeWord &&& 0xFFFFFFFF#32 = 0x20000000#32
  decide

theorem decode : Statement .decode := by
  show decodeWord &&& 0xFFFFFFFF#32 = 0x21000000#32
  decide

theorem busRd (size : AccessSize) (addr : Addr) : Statement (.busRd size addr) := by
  show busRdDescriptor size addr &&& 0xBFF00000FFFFFFFF#64 = 0x0000000000000000#64
  have hm : ∀ i, i < 64 → 32 ≤ i → i < 52 ∨ i = 62 →
      (0xBFF00000FFFFFFFF#64).getLsbD i = false := by decide
  apply BitVec.eq_of_getLsbD_eq
  intro i hi
  have hz : (0x0000000000000000#64).getLsbD i = false := BitVec.getLsbD_zero
  rw [BitVec.getLsbD_and, busRdDescriptor, busDescriptor_getLsbD, hz]
  split_ifs with h1 h2 h3 h4
  · rw [BitVec.getLsbD_zero, Bool.false_and]
  · rw [hm i hi (by omega) (by omega), Bool.and_false]
  · rw [Bool.false_and]
  · rw [hm i hi (by omega) (by omega), Bool.and_false]
  · rw [BitVec.getLsbD_zero, Bool.false_and]

theorem busWr (size : AccessSize) (addr : Addr) (data : Word) : Statement (.busWr size addr data) := by
  show busWrDescriptor size addr data &&& 0xBFF0000000000000#64 = 0x8000000000000000#64
  have hm : ∀ i, i < 64 → i < 52 ∨ i = 62 → (0xBFF0000000000000#64).getLsbD i = false := by decide
  have h1 : ∀ i, i < 63 → (0x8000000000000000#64).getLsbD i = false := by decide
  apply BitVec.eq_of_getLsbD_eq
  intro i hi
  rw [BitVec.getLsbD_and, busWrDescriptor, busDescriptor_getLsbD]
  split_ifs with h2 h3 h4 h5
  · rw [hm i hi (by omega), Bool.and_false, h1 i (by omega)]
  · rw [hm i hi (by omega), Bool.and_false, h1 i (by omega)]
  · rw [Bool.false_and, h1 i (by omega)]
  · rw [hm i hi (by omega), Bool.and_false, h1 i (by omega)]
  · have : i = 63 := by omega
    subst this; rfl

end Sys2Proof.Laws.TableRow
end

