-- ==== Sys2Proof/Tests/Slice0.lean ====
section
/-! SUPPORT. Tests with expected results from the spec's own examples and vectors, and a witness for the
hypotheses of every obligation that has some. -/

namespace Sys2Proof.Tests

set_option Elab.async false

open Sys2Proof Sys2Proof.Machine Sys2Proof.Claims

/-- The outcome is a next state that meets `p`. -/
def nextIs (o : Host.Outcome State Fault Refusal) (p : State → Bool) : Bool :=
  match o with
  | .next t => p t
  | .fault _ => false
  | .refused _ => false

theorem nextIs_exists {o : Host.Outcome State Fault Refusal} {p : State → Bool}
    (h : nextIs o p = true) : ∃ t, o = .next t ∧ p t = true := by
  cases o with
  | next t => exact ⟨t, rfl, h⟩
  | fault r => cases h
  | refused r => cases h

/-- The state with the fault record (cause, info) and otherwise `s`. -/
def faults (s : State) (c : FaultCause) (info : Word) (o : Host.Outcome State Fault Refusal) : Bool :=
  nextIs o fun t => decide (t = { s with faultCause := c, faultInfo := info })

/-- Bytes as cells. -/
def cells (a : Nat) (l : List Byte) : Memory := cellsFrom a l

/-- The frame of 95_test_vectors.md W2, row V-COD-03. -/
def w2 : List Byte := [0xAB, 0x00, 0x2A, 0x01, 0x00, 0xFF, 0x40, 0xA5]

/-- W2's frame in FBUF, its payload in PBUF, and every register valid. -/
def full : State :=
  { State.reset with id := some 0x00AB, cnt := some 0x2A, len := some 1, flen := some 8,
                     data := some 0x00ABCDEF, crcVal := some 0xD64E,
                     fbuf := cells 0 w2, pbuf := cells 0 [0xFF] }

/-- W2's frame with one byte changed. -/
def changed (j : Nat) (b : Byte) : State := { full with fbuf := cells 0 (w2.set j b) }

/-- FLEN = n after reset. -/
def sized (n : Extent) : State := { State.reset with flen := some n }

/-- A finalized CRC instance. -/
def finalized : State := { State.reset with crcState := .final, crcVal := some 0x0000 }

/-- A faulted block: `rd CRCVAL` after reset (row V-CRC-26). -/
def faulted : State := { State.reset with faultCause := .uninitRead, faultInfo := 0x2C }

/-! ### WellFormed: the ill-formed terms are refused -/

theorem test_wellFormed_refuses_a_wide_byte_write :
    (Instr.busWr .byte 0x10000 0x100).wellFormed = false := by decide

theorem test_wellFormed_takes_the_widest_byte_write :
    (Instr.busWr .byte 0x10000 0xFF).wellFormed = true := by decide

/-! ### Decode: words written out from 30_encoding.md R67 and R73 -/

theorem test_decode_crcInit : decodeTableWord 32 0b00000001_00000000_00000000_00000000 =
    some .crcInit := by decide

theorem test_decode_crcAdd : decodeTableWord 32 0b00000010_00000000_00000000_10110001 =
    some (.crcAdd 0xB1) := by decide

theorem test_decode_crcFinal : decodeTableWord 32 0b00000011_00000000_00000000_00000000 =
    some .crcFinal := by decide

theorem test_decode_curRead : decodeTableWord 32 0b00010000_00000000_00000000_00000100 =
    some (.curRead 4) := by decide

theorem test_decode_curWrite : decodeTableWord 32 0b00010001_00000000_00000000_00000011 =
    some (.curWrite 3) := by decide

theorem test_decode_encode : decodeTableWord 32 0b00100000_00000000_00000000_00000000 =
    some .encode := by decide

theorem test_decode_decode : decodeTableWord 32 0b00100001_00000000_00000000_00000000 =
    some .decode := by decide

/-- Fields D = 0, S = 1, A = 0x00024. -/
theorem test_decode_busRd : decodeTableWord 64
    0b0100000000000000_0000000000100100_0000000000000000_0000000000000000 =
    some (.busRd .word 0x00024) := by decide

/-- Fields D = 1, S = 0, A = 0x3FFFE, W = 0xA5. -/
theorem test_decode_busWr : decodeTableWord 64
    0b1000000000000011_1111111111111110_0000000000000000_0000000010100101 =
    some (.busWr .byte 0x3FFFE 0xA5) := by decide

/-- Rows V-BUS-24, V-CRC-22 and V-CUR-11, and R73's refusals, each by its name. -/
theorem test_decode_rejects_by_name :
    decodeInstr (.command 0x00000000) = .error .reservedOpcode ∧
    decodeInstr (.command 0x02000100) = .error .nonzeroArg ∧
    decodeInstr (.command 0x10000008) = .error .nonzeroArg ∧
    decodeInstr (.transaction 0x0010000000000000) = .error .reservedDescriptorBits ∧
    decodeInstr (.transaction 0x4000000400000001) = .error .readWithData ∧
    decodeInstr (.transaction 0x8001000000000100) = .error .wideByteData := by decide

/-! ### Reset and steps -/

theorem test_reset_memory_wf :
    State.reset.fbuf.wf = true ∧ State.reset.pbuf.wf = true := by decide

/-- A table word runs as the first instruction after reset (R84's example). -/
theorem test_step_runs_a_table_word :
    nextIs (step (State.reset.withFetchWord 32 0x02000031)) (fun t => decide (t.crcReg = 0xC782)) =
      true := by decide +kernel

/-- Row V-RST-01: RESET leaves the faulted state. -/
theorem test_reset_leaves_the_faulted_state :
    nextIs (step { faulted with host := [.reset] })
      (fun t => decide (t = State.reset)) = true := by decide +kernel

/-! ### One instruction each -/

/-- 40_crc.md R83, worked example. -/
theorem test_crcInit :
    nextIs (exec .crcInit { finalized with crcReg := 0x29B1 })
      (fun t => decide (t.crcReg = 0xFFFF ∧ t.crcState = .accum ∧ t.crcVal = some 0)) = true := by
  decide +kernel

/-- 40_crc.md R84, worked example. -/
theorem test_crcAdd :
    nextIs (exec (.crcAdd 0x31) State.reset) (fun t => decide (t.crcReg = 0xC782)) = true := by
  decide +kernel

/-- Row V-CRC-20's last transaction. -/
theorem test_crcAdd_after_final :
    faults finalized .crcReuse 0x02000032 (exec (.crcAdd 0x32) finalized) = true := by
  decide +kernel

/-- 40_crc.md R85, worked example. -/
theorem test_crcFinal :
    nextIs (exec .crcFinal { State.reset with crcReg := 0x29B1 })
      (fun t => decide (t.crcVal = some 0xD64E ∧ t.crcReg = 0x29B1 ∧ t.statusWord = 0x10)) = true := by
  decide +kernel

/-- Row V-CRC-19. -/
theorem test_crcFinal_twice :
    faults finalized .crcReuse 0x03000000 (exec .crcFinal finalized) = true := by decide +kernel

/-- 41_cursor.md R91, worked example. -/
theorem test_curRead :
    nextIs (exec (.curRead 2) { sized 7 with fbuf := cells 0 [0x34, 0x12] })
      (fun t => decide (t.data = some 0x00001234 ∧ t.off = 2)) = true := by decide +kernel

/-- Row V-CUR-06: a read from OFF = FLEN. -/
theorem test_curRead_at_the_end :
    faults { sized 2 with fbuf := cells 0 [1, 2], off := 2 } .cursorBounds 0x10000001
      (exec (.curRead 1) { sized 2 with fbuf := cells 0 [1, 2], off := 2 }) = true := by
  decide +kernel

/-- 41_cursor.md R92, worked example. -/
theorem test_curWrite :
    nextIs (exec (.curWrite 3) { sized 7 with data := some 0x00ABCDEF })
      (fun t => decide (t.fbuf = cells 0 [0xEF, 0xCD, 0xAB] ∧ t.off = 3)) = true := by decide +kernel

/-- Row V-CUR-15: the last two bytes of FBUF. -/
theorem test_curWrite_at_the_end_of_fbuf :
    nextIs (exec (.curWrite 2) { sized 131071 with data := some 0xBEEF, off := 65540 })
      (fun t => decide (t.fbuf = [(65540, 0xEF), (65541, 0xBE)] ∧ t.off = 65542)) = true := by
  decide +kernel

/-- 42_codec.md R97, worked example (W1). -/
theorem test_encode :
    nextIs (exec .encode { State.reset with id := some 1, cnt := some 0, len := some 0 })
      (fun t => decide (t.flen = some 7 ∧
        t.fbuf = cells 0 [0x01, 0x00, 0x00, 0x00, 0x00, 0xA2, 0x44])) = true := by decide +kernel

/-- Row V-COD-09. -/
theorem test_encode_without_payload_byte :
    faults { State.reset with id := some 1, cnt := some 2, len := some 2, pbuf := cells 0 [9] }
      .uninitRead 0x00030001
      (exec .encode
        { State.reset with id := some 1, cnt := some 2, len := some 2, pbuf := cells 0 [9] }) = true := by
  decide +kernel

/-- 42_codec.md R98, worked example. -/
theorem test_decode :
    nextIs (exec .decode { sized 8 with fbuf := cells 0 w2 })
      (fun t => decide (t.result = .ok ∧ t.id = some 0x00AB ∧ t.cnt = some 0x2A ∧ t.len = some 1 ∧
        t.pbuf = cells 0 [0xFF])) = true := by decide +kernel

/-- W5 with row V-COD-26's second half: CRC_MISMATCH, nothing else written. -/
theorem test_decode_crc_mismatch :
    nextIs (exec .decode (changed 5 0xFE))
      (fun t => decide (t = { changed 5 0xFE with result := .crcMismatch })) = true := by
  decide +kernel

/-- 20_memory.md R55, worked example. -/
theorem test_busRd :
    nextIs (exec (.busRd .word 0x00028) State.reset) (fun t => decide (t.reads = [0x0000FFFF])) =
      true := by decide +kernel

/-- Row V-BUS-11: one past PBUF. -/
theorem test_busRd_past_pbuf :
    faults State.reset .busError 0x0003FFFF (exec (.busRd .byte 0x3FFFF) State.reset) = true := by
  decide +kernel

/-- 20_memory.md R56, worked example. -/
theorem test_busWr :
    faults State.reset .fieldRange 0x00000010 (exec (.busWr .word 0x00010 0x00012345) State.reset) =
      true := by decide +kernel

/-- Row V-BUS-21: the last FBUF byte. -/
theorem test_busWr_last_fbuf_byte :
    nextIs (exec (.busWr .byte 0x20005 0x5A) State.reset)
      (fun t => decide (t.fbuf = [(65541, 0x5A)])) = true := by decide +kernel

/-! ### Witnesses: reset, steps, encoding -/

theorem witness_ResetLeavesTheStatedValues :
    ({ faulted with host := [.reset] } : State).host = .reset :: [] := by decide

theorem witness_StepKeepsInv : ∃ s t : State, s.Inv ∧ step s = .next t := by
  obtain ⟨t, h, _⟩ := nextIs_exists (o := step { State.reset with host := [.reset] })
    (p := fun _ => true) (by decide +kernel)
  exact ⟨_, t, ⟨rfl, rfl, rfl, rfl, fun _ => rfl, by simp [State.reset], by simp [State.reset],
    by simp [State.reset]⟩, h⟩

theorem witness_StepTakesTheNextHostAction :
    State.reset.host = [] ∧
    ({ State.reset with host := [.reset] } : State).host = .reset :: [] ∧
    ({ State.reset with host := [.transaction 0x4000000400000000] } : State).host =
      .transaction 0x4000000400000000 :: [] ∧
    decodeInstr (.transaction 0x4000000400000000) = .ok (.busRd .word 0x00004) ∧
    decodeInstr (.transaction 0x4010000400000000) = .error .reservedDescriptorBits := by decide

theorem witness_StepRunsTheTableWord : decodeTableWord 32 0x21000000 = some .decode ∧
    decodeTableWord 64 0x4000000400000000 = some (.busRd .word 0x00004) := by decide

theorem witness_EveryInstructionAnswersNext :
    Instr.encode.isCommand = true ∧ faulted.faultCause ≠ .none := by decide

theorem witness_DecodeOfEncodeIsTheInstruction :
    Instr.encode.wellFormed = true ∧ (Instr.busWr .byte 0x20005 0xFF).wellFormed = true := by decide

theorem witness_EncodeOfDecodeIsTheWord :
    decodeInstr (.command 0x10000007) = .ok (.curRead 7) ∧
    decodeInstr (.transaction 0xC00000240000FFFF) = .ok (.busWr .word 0x00024 0xFFFF) := by decide

/-- A reserved bit at each end, a BUS_RD, and BUS_WRs of both sizes. -/
theorem witness_DescriptorFieldsDecode :
    (0x4010000000000000 : Descriptor).extractLsb' 52 10 ≠ 0#10 ∧
    (0x2000000000000000 : Descriptor).extractLsb' 52 10 ≠ 0#10 ∧
    ((0x4000000400000000 : Descriptor).extractLsb' 52 10 = 0#10 ∧
      (0x4000000400000000 : Descriptor).getLsbD 63 = false ∧
      (0x4000000400000000 : Descriptor).extractLsb' 0 32 = 0#32) ∧
    ((0x80010000000000FF : Descriptor).extractLsb' 52 10 = 0#10 ∧
      (0x80010000000000FF : Descriptor).getLsbD 63 = true ∧
      (0x80010000000000FF : Descriptor).getLsbD 62 = false ∧
      ((0x80010000000000FF : Descriptor).extractLsb' 0 32).extractLsb' 8 24 = 0#24) ∧
    ((0xC0000024FFFFFFFF : Descriptor).extractLsb' 52 10 = 0#10 ∧
      (0xC0000024FFFFFFFF : Descriptor).getLsbD 63 = true ∧
      (0xC0000024FFFFFFFF : Descriptor).getLsbD 62 = true) := by decide

/-- The premise "not faulted" of every statement about a block that runs. -/
theorem witness_not_faulted : State.reset.faultCause = .none ∧ full.faultCause = .none := by decide

/-- Each clause: OP 0x00 and 0xFF; ARG's lowest and highest bit; CRC_ADD's ARG[8] and ARG[23]; a
cursor command's ARG[3] and ARG[23]. -/
theorem witness_ReservedCommandWordsAreIllegal :
    State.reset.faultCause = .none ∧
    ((0x00000000 : Word).extractLsb' 24 8 = 0x00 ∧ (0xFF000000 : Word).extractLsb' 24 8 = 0xFF) ∧
    ((0x01000001 : Word).extractLsb' 24 8 = 0x01 ∧ (0x01000001 : Word).extractLsb' 0 24 ≠ 0#24) ∧
    ((0x21800000 : Word).extractLsb' 24 8 = 0x21 ∧ (0x21800000 : Word).extractLsb' 0 24 ≠ 0#24) ∧
    ((0x02000100 : Word).extractLsb' 24 8 = 0x02 ∧ (0x02000100 : Word).extractLsb' 8 16 ≠ 0#16) ∧
    ((0x02800000 : Word).extractLsb' 24 8 = 0x02 ∧ (0x02800000 : Word).extractLsb' 8 16 ≠ 0#16) ∧
    ((0x10000008 : Word).extractLsb' 24 8 = 0x10 ∧ (0x10000008 : Word).extractLsb' 3 21 ≠ 0#21) ∧
    ((0x11800000 : Word).extractLsb' 24 8 = 0x11 ∧ (0x11800000 : Word).extractLsb' 3 21 ≠ 0#21) := by
  decide

theorem witness_MnemonicIsOneCmdWrite :
    Instr.encode.isCommand = true ∧
    ({ full with host := [asmInstr .encode] } : State).host = asmInstr .encode :: [] := by decide

/-! ### Witnesses: the CRC unit -/

theorem witness_CrcIsAffine :
    ([0x44, 0x20] : List Byte).length = ([0xE6, 0xF1] : List Byte).length ∧
    ([0xE6, 0xF1] : List Byte).length = ([0xF9, 0x0E] : List Byte).length := by decide

theorem witness_CrcInitStartsANewInstance :
    finalized.faultCause = .none ∧ (0x01000001 : Word).extractLsb' 24 8 = 0x01#8 ∧
    (0x01000001 : Word).extractLsb' 0 24 ≠ 0#24 := by decide

theorem witness_CrcAddMixesOneByte :
    (State.reset.faultCause = .none ∧ State.reset.crcState = .accum) ∧
    (finalized.faultCause = .none ∧ finalized.crcState = .final) ∧
    (0x02000100 : Word).extractLsb' 24 8 = 0x02#8 ∧
    (0x02000100 : Word).extractLsb' 8 16 ≠ 0#16 := by decide

theorem witness_CrcFinalReadsOutTheInverse :
    (State.reset.faultCause = .none ∧ State.reset.crcState = .accum) ∧
    (finalized.faultCause = .none ∧ finalized.crcState = .final) ∧
    (0x03000080 : Word).extractLsb' 24 8 = 0x03#8 ∧
    (0x03000080 : Word).extractLsb' 0 24 ≠ 0#24 := by decide

/-! ### Witnesses: the host cursor -/

/-- Counts 0 and 5; FLEN invalid; one byte past the bound; the first invalid byte; the last byte. -/
theorem witness_CurReadReadsLittleEndian :
    (¬ (1 ≤ (0#3).toNat ∧ (0#3).toNat ≤ 4) ∧ ¬ (1 ≤ (5#3).toNat ∧ (5#3).toNat ≤ 4)) ∧
    (1 ≤ (1#3).toNat ∧ (4#3).toNat ≤ 4 ∧ State.reset.flen = none) ∧
    (full.flen = some 8 ∧ min (8#17).toNat 65542 < (5#17).toNat + (4#3).toNat) ∧
    (full.off.toNat + (4#3).toNat ≤ min (4#17).toNat 65542 ∧
      ∀ j, j < (4#3).toNat → full.fbuf.read (full.off.toNat + j) =
        some ((fun k => ([0xAB, 0x00, 0x2A, 0x01] : List Byte).getD k 0) j)) ∧
    firstInvalid full.fbuf 7 9 8 ∧
    ((0x10000008 : Word).extractLsb' 24 8 = 0x10#8 ∧
      (0x10000008 : Word).extractLsb' 3 21 ≠ 0#21) := by
  unfold firstInvalid; decide +kernel

/-- Counts 0 and 7; DATA invalid; FLEN invalid; one byte past the bound; a write that ends at it. -/
theorem witness_CurWriteStoresLittleEndian :
    (¬ (1 ≤ (0#3).toNat ∧ (0#3).toNat ≤ 4) ∧ ¬ (1 ≤ (7#3).toNat ∧ (7#3).toNat ≤ 4)) ∧
    State.reset.data = none ∧
    (({ State.reset with data := some 0 } : State).data ≠ none ∧
      ({ State.reset with data := some 0 } : State).flen = none) ∧
    (full.data = some 0x00ABCDEF ∧ full.flen = some 8 ∧
      min (131071#17).toNat 65542 < (65540#17).toNat + (3#3).toNat ∧
      (65540#17).toNat + (2#3).toNat ≤ min (131071#17).toNat 65542) ∧
    ((0x11800000 : Word).extractLsb' 24 8 = 0x11#8 ∧
      (0x11800000 : Word).extractLsb' 3 21 ≠ 0#21) := by decide +kernel

theorem witness_CursorReadsBackWhatItWrote :
    full.faultCause = .none ∧ 1 ≤ (4#3).toNat ∧ (4#3).toNat ≤ 4 ∧ full.data = some 0x00ABCDEF ∧
    full.flen = some 8 ∧ full.off.toNat + (4#3).toNat ≤ min (8#17).toNat 65542 := by decide +kernel

/-- Row V-CUR-19's counts. -/
theorem witness_CursorOffsetsAddUp :
    (∀ i ∈ [Instr.curWrite 4, Instr.curWrite 1, Instr.curWrite 3], (cursorCount i).isSome = true) ∧
    ∃ t, execAll [.curWrite 4, .curWrite 1, .curWrite 3] full = .next t ∧ t.faultCause = .none := by
  refine ⟨by decide, ?_⟩
  obtain ⟨t, h, ht⟩ := nextIs_exists
    (o := execAll [.curWrite 4, .curWrite 1, .curWrite 3] full)
    (p := fun t => decide (t.faultCause = .none)) (by decide +kernel)
  exact ⟨t, h, of_decide_eq_true ht⟩

/-! ### Witnesses: the codec -/

/-- Each register invalid in turn; the first invalid payload byte; the whole payload valid. -/
theorem witness_EncodeBuildsTheFrame :
    State.reset.id = none ∧
    (({ State.reset with id := some 1 } : State).id ≠ none ∧
      ({ State.reset with id := some 1 } : State).cnt = none) ∧
    (({ State.reset with id := some 1, cnt := some 2 } : State).cnt ≠ none ∧
      ({ State.reset with id := some 1, cnt := some 2 } : State).len = none) ∧
    (full.id = some 0x00AB ∧ full.cnt = some 0x2A ∧ full.len = some 1 ∧
      ([0xFF] : List Byte).length = (1#16).toNat ∧ bytesAt full.pbuf 0 [0xFF]) ∧
    firstInvalid full.pbuf 0 2 1 ∧ bytesAt full.pbuf 0 [] ∧
    ((0x20000001 : Word).extractLsb' 24 8 = 0x20#8 ∧
      (0x20000001 : Word).extractLsb' 0 24 ≠ 0#24) := by
  unfold firstInvalid bytesAt; decide +kernel

theorem witness_EncodeSetsFlenToLenPlusSeven :
    full.faultCause = .none ∧ ∃ t, exec .encode full = .next t ∧ t.faultCause = .none := by
  refine ⟨rfl, ?_⟩
  obtain ⟨t, h, ht⟩ := nextIs_exists (o := exec .encode full)
    (p := fun t => decide (t.faultCause = .none)) (by decide +kernel)
  exact ⟨t, h, of_decide_eq_true ht⟩

theorem witness_EncodeIdIsLittleEndian : ∃ s t : State, s.faultCause = .none ∧ s.id = some 0x1234 ∧
    exec .encode s = .next t ∧ t.faultCause = .none := by
  obtain ⟨t, h, ht⟩ := nextIs_exists (o := exec .encode { full with id := some 0x1234 })
    (p := fun t => decide (t.faultCause = .none)) (by decide +kernel)
  exact ⟨{ full with id := some 0x1234 }, t, rfl, rfl, h, of_decide_eq_true ht⟩

/-- Each clause, at its boundary: FLEN invalid; 6 and 7; the last header byte invalid (V-COD-31 with one
byte less); the lengths that differ; the last CRC byte invalid (V-COD-28); the two CRC cases. -/
theorem witness_DecodeParsesTheFrame :
    State.reset.flen = none ∧
    ((6#17).toNat < 7 ∧ 7 ≤ (7#17).toNat) ∧
    firstInvalid (cells 0 [0xAB, 0x00, 0x2A, 0x01]) 0 5 4 ∧
    (bytesAt full.fbuf 0 [0xAB, 0x00, 0x2A, 0x01, 0x00] ∧
      (([0xAB, 0x00, 0x2A, 0x01, 0x00] : List Byte).getD 3 0).toNat +
        256 * (([0xAB, 0x00, 0x2A, 0x01, 0x00] : List Byte).getD 4 0).toNat = (8#17).toNat - 7 ∧
      (([0xAB, 0x00, 0x2A, 0x01, 0x00] : List Byte).getD 3 0).toNat +
        256 * (([0xAB, 0x00, 0x2A, 0x01, 0x00] : List Byte).getD 4 0).toNat ≠ (9#17).toNat - 7) ∧
    firstInvalid (cells 0 [0, 0, 0, 0, 0, 0xF3]) 5 7 6 ∧
    (w2.length = 7 + 1 ∧ bytesAt full.fbuf 0 w2 ∧
      (crcValue (w2.take (5 + 1))).toNat =
        (w2.getD (5 + 1) 0).toNat + 256 * (w2.getD (6 + 1) 0).toNat) ∧
    (bytesAt (changed 5 0xFE).fbuf 0 (w2.set 5 0xFE) ∧
      (crcValue ((w2.set 5 0xFE).take (5 + 1))).toNat ≠
        ((w2.set 5 0xFE).getD (5 + 1) 0).toNat + 256 * ((w2.set 5 0xFE).getD (6 + 1) 0).toNat) ∧
    ((0x21000100 : Word).extractLsb' 24 8 = 0x21#8 ∧
      (0x21000100 : Word).extractLsb' 0 24 ≠ 0#24) := by
  unfold firstInvalid bytesAt; decide +kernel

/-- A success (V-COD-17) and a failure (V-COD-18). -/
theorem witness_FailedDecodeWritesOnlyResult :
    (∃ t, exec .decode full = .next t ∧ t.faultCause = .none ∧ t.result = .ok) ∧
    ∃ t, exec .decode (changed 3 0x02) = .next t ∧ t.faultCause = .none ∧ t.result = .lenMismatch := by
  refine ⟨?_, ?_⟩
  · obtain ⟨t, h, ht⟩ := nextIs_exists (o := exec .decode full)
      (p := fun t => decide (t.faultCause = .none ∧ t.result = .ok)) (by decide +kernel)
    exact ⟨t, h, of_decide_eq_true ht⟩
  · obtain ⟨t, h, ht⟩ := nextIs_exists (o := exec .decode (changed 3 0x02))
      (p := fun t => decide (t.faultCause = .none ∧ t.result = .lenMismatch)) (by decide +kernel)
    exact ⟨t, h, of_decide_eq_true ht⟩

/-- Two states that differ outside FLEN and FBUF[0 .. FLEN). -/
theorem witness_DecodeDependsOnlyOnTheFrame :
    full.flen = ({ sized 8 with off := 9, fbuf := cells 0 (w2 ++ [0x77]) } : State).flen ∧
    (∀ x, x < min (8#17).toNat 65542 → full.fbuf.read x = (cells 0 (w2 ++ [0x77])).read x) ∧
    (∃ t, exec .decode full = .next t) ∧
    ∃ t, exec .decode { sized 8 with off := 9, fbuf := cells 0 (w2 ++ [0x77]) } = .next t := by
  refine ⟨rfl, by decide +kernel, ?_, ?_⟩
  · obtain ⟨t, h, _⟩ := nextIs_exists (o := exec .decode full) (p := fun _ => true) (by decide +kernel)
    exact ⟨t, h⟩
  · obtain ⟨t, h, _⟩ := nextIs_exists
      (o := exec .decode { sized 8 with off := 9, fbuf := cells 0 (w2 ++ [0x77]) })
      (p := fun _ => true) (by decide +kernel)
    exact ⟨t, h⟩

/-- Row V-COD-25. -/
theorem witness_OversizedFlenIsALengthMismatch :
    (sized 65543).faultCause = .none ∧ (sized 65543).flen = some 65543 ∧ 65543 ≤ (65543#17).toNat ∧
    ∀ x, x < 5 → ({ sized 65543 with fbuf := cells 0 [0, 0, 0, 0xFF, 0xFF] } : State).fbuf.read x ≠
      none := by decide +kernel

theorem witness_DecodeOfEncodedFrameDelivers :
    full.faultCause = .none ∧ ([0xFF] : List Byte).length ≤ 65535 ∧ full.id = some 0x00AB ∧
    full.cnt = some 0x2A ∧ full.len = some (BitVec.ofNat 16 ([0xFF] : List Byte).length) ∧
    bytesAt full.pbuf 0 [0xFF] := by
  unfold bytesAt; decide +kernel

/-- The first byte, a length byte, the payload byte and the last CRC byte of W2's frame (V-COD-20). -/
theorem witness_EveryChangedByteIsDetected :
    full.flen = some (BitVec.ofNat 17 (([0xFF] : List Byte).length + 7)) ∧
    ∀ jb ∈ ([(0, 0xAA), (3, 0x02), (4, 0x01), (5, 0xFE), (7, 0x25)] : List (Nat × Byte)),
      jb.1 < ([0xFF] : List Byte).length + 7 ∧ (frameOf 0x00AB 0x2A [0xFF])[jb.1]? ≠ some jb.2 ∧
      bytesAt (changed jb.1 jb.2).fbuf 0 ((frameOf 0x00AB 0x2A [0xFF]).set jb.1 jb.2) := by
  unfold bytesAt; decide +kernel

/-- Row V-COD-18: byte 3 changed, byte 4 kept. -/
theorem witness_ChangedLengthFieldIsALengthMismatch :
    (changed 3 0x02).faultCause = .none ∧ (frameOf 0x00AB 0x2A [0xFF])[3]? ≠ some 0x02 ∧
    (changed 3 0x02).flen = some (BitVec.ofNat 17 (([0xFF] : List Byte).length + 7)) ∧
    bytesAt (changed 3 0x02).fbuf 0 (((frameOf 0x00AB 0x2A [0xFF]).set 3 0x02).set 4 0x00) := by
  unfold bytesAt; decide +kernel

/-- Lengths 0, 6 and 7 of W2's eight bytes (V-COD-23). -/
theorem witness_TruncatedFrameIsRejected :
    bytesAt full.fbuf 0 (frameOf 0x00AB 0x2A [0xFF]) ∧
    ∀ k ∈ [0, 6, 7], k < ([0xFF] : List Byte).length + 7 ∧
      (sized (BitVec.ofNat 17 k)).flen = some (BitVec.ofNat 17 k) := by
  unfold bytesAt; decide +kernel

/-! ### Witnesses: the bus -/

/-- Each condition of R52 at its edges, and addresses that meet none. -/
theorem witness_BusErrorExactlyOnItsConditions :
    busErrorCondition false .byte 0x0FFFF ∧ busErrorCondition false .byte 0x20006 ∧
    busErrorCondition false .byte 0x3FFFF ∧ busErrorCondition false .word 0x00040 ∧
    busErrorCondition false .word 0x00012 ∧ busErrorCondition false .byte 0x00010 ∧
    busErrorCondition false .word 0x00030 ∧ busErrorCondition true .word 0x0003C ∧
    busErrorCondition true .word 0x00028 ∧ busErrorCondition false .word 0x10000 ∧
    ¬ busErrorCondition false .byte 0x10000 ∧ ¬ busErrorCondition false .byte 0x20005 ∧
    ¬ busErrorCondition true .byte 0x3FFFE ∧ ¬ busErrorCondition false .word 0x00028 ∧
    ¬ busErrorCondition true .word 0x00000 := by
  refine ⟨?_, ?_, ?_, ?_, ?_, ?_, ?_, ?_, ?_, ?_, ?_, ?_, ?_, ?_, ?_⟩ <;>
    simp only [busErrorCondition] <;> decide

theorem witness_RegisterReadValues :
    (full.faultCause = .none ∧ full.id = some 0x00AB ∧ full.cnt = some 0x2A ∧ full.len = some 1 ∧
      full.flen = some 8 ∧ full.data = some 0x00ABCDEF ∧ full.crcVal = some 0xD64E) ∧
    (State.reset.faultCause = .none ∧ State.reset.id = none ∧ State.reset.cnt = none ∧
      State.reset.len = none ∧ State.reset.flen = none ∧ State.reset.data = none ∧
      State.reset.crcVal = none) := by decide

/-- The first and the last byte of each buffer, valid and invalid. -/
theorem witness_BufferByteReads :
    (full.fbuf.read ((0x10000#20).toNat - 0x10000) = some 0xAB ∧
      full.fbuf.read ((0x20005#20).toNat - 0x10000) = none ∧ (0x20005#20).toNat ≤ 0x20005) ∧
    (full.pbuf.read ((0x30000#20).toNat - 0x30000) = some 0xFF ∧
      full.pbuf.read ((0x3FFFE#20).toNat - 0x30000) = none ∧ (0x3FFFE#20).toNat ≤ 0x3FFFE) := by
  decide +kernel

/-- Each clause: a faulted block; an error address; a legal and an illegal command word; the largest
value each field takes and the smallest it does not; the last buffer bytes. -/
theorem witness_BusWriteEffects :
    faulted.faultCause ≠ .none ∧ State.reset.faultCause = .none ∧
    decodeInstr (.command 0x20000000) = .ok .encode ∧
    decodeInstr (.command 0xFF000000) = .error .reservedOpcode ∧
    ((0xFFFF : Word).extractLsb' 16 16 = 0#16 ∧ (0x10000 : Word).extractLsb' 16 16 ≠ 0#16) ∧
    ((0xFF : Word).extractLsb' 8 24 = 0#24 ∧ (0x100 : Word).extractLsb' 8 24 ≠ 0#24) ∧
    ((0x1FFFF : Word).extractLsb' 17 15 = 0#15 ∧ (0x20000 : Word).extractLsb' 17 15 ≠ 0#15) ∧
    (0x10000 ≤ (0x20005#20).toNat ∧ (0x20005#20).toNat ≤ 0x20005) ∧
    (0x30000 ≤ (0x3FFFE#20).toNat ∧ (0x3FFFE#20).toNat ≤ 0x3FFFE) := by decide

/-- A read that returns a value, one that faults, and a write that is not to CMD. -/
theorem witness_ReadsAndPlainWritesRepeat :
    (∃ t u, exec (.busRd .word 0x00028) State.reset = .next t ∧
      exec (.busRd .word 0x00028) t = .next u) ∧
    (∃ t u, exec (.busRd .word 0x0002C) State.reset = .next t ∧
      exec (.busRd .word 0x0002C) t = .next u) ∧
    ∃ t, (AccessSize.byte ≠ .word ∨ (0x10000#20 : Addr) ≠ 0x00000#20) ∧
      exec (.busWr .byte 0x10000 0x5A) State.reset = .next t := by
  have run : ∀ (i : Instr) (s : State), nextIs (exec i s) (fun _ => true) = true →
      ∃ t, exec i s = .next t := fun i s h => by
    obtain ⟨t, h, _⟩ := nextIs_exists h
    exact ⟨t, h⟩
  refine ⟨⟨got State.reset 0xFFFF, ?_⟩, ⟨raised State.reset .uninitRead 0x2C, ?_⟩, ?_⟩
  · obtain ⟨u, hu⟩ := run (.busRd .word 0x00028) (got State.reset 0xFFFF) (by decide +kernel)
    exact ⟨u, rfl, hu⟩
  · obtain ⟨u, hu⟩ := run (.busRd .word 0x0002C) (raised State.reset .uninitRead 0x2C)
      (by decide +kernel)
    exact ⟨u, rfl, hu⟩
  · obtain ⟨t, ht⟩ := run (.busWr .byte 0x10000 0x5A) State.reset (by decide +kernel)
    exact ⟨t, by decide, ht⟩

/-- The last byte of each buffer, and another byte that reads. -/
theorem witness_BufferReadAfterWrite :
    (0x10000 ≤ (0x20005#20).toNat ∧ (0x20005#20).toNat ≤ 0x20005) ∧
    (0x30000 ≤ (0x3FFFE#20).toNat ∧ (0x3FFFE#20).toNat ≤ 0x3FFFE) ∧
    (0x10000#20 : Addr) ≠ 0x20005#20 ∧
    ∃ v, exec (.busRd .byte 0x10000) full = .next (got full v) :=
  ⟨by decide, by decide, by decide, 0xAB, rfl⟩

/-! ### Witnesses: faults and whole-machine rules -/

theorem witness_FaultedBlockAnswersOnlyItsStatus :
    faulted.faultCause ≠ .none ∧
    ¬ (AccessSize.byte = .word ∧ (0x00004#20 : Addr) ∈ [0x00004#20, 0x00008#20, 0x0000C#20]) ∧
    ¬ (AccessSize.word = .word ∧ (0x00010#20 : Addr) ∈ [0x00004#20, 0x00008#20, 0x0000C#20]) ∧
    (∃ t, step faulted = .next t ∧ ∀ rest, faulted.host ≠ .reset :: rest) ∧
    ∃ t, runOf [] faulted = .next t ∧ t.faultCause ≠ .none :=
  ⟨by decide, by decide, by decide, ⟨faulted, rfl, fun _ h => by cases h⟩,
    ⟨faulted, rfl, by decide⟩⟩

/-- A fault from a running block, and a transaction of a faulted one. -/
theorem witness_FaultsArePrecise :
    (∃ t, exec (.busRd .word 0x0002C) State.reset = .next t ∧ State.reset.faultCause = .none ∧
      t.faultCause ≠ .none) ∧
    ∃ t, exec .encode faulted = .next t ∧ faulted.faultCause ≠ .none :=
  ⟨⟨raised State.reset .uninitRead 0x2C, rfl, rfl, by decide⟩, ⟨faulted, rfl, by decide⟩⟩

/-- Each cause once (rows V-BUS-06, V-BUS-03, V-BUS-24, V-CRC-19, V-CUR-07, V-CUR-06, V-CRC-26). -/
theorem witness_FaultCausesAndInformation :
    nextIs (exec (.busRd .word 0x00012) State.reset)
      (fun t => decide (t.faultCause = .busError ∧ t.faultInfo = 0x12)) = true ∧
    nextIs (exec (.busWr .word 0x00014 0x100) State.reset)
      (fun t => decide (t.faultCause = .fieldRange ∧ t.faultInfo = 0x14)) = true ∧
    nextIs (exec (.busWr .word 0x00000 0) State.reset)
      (fun t => decide (t.faultCause = .illegalCmd ∧ t.faultInfo = 0)) = true ∧
    nextIs (exec (.busWr .word 0x00000 0x03000000) finalized)
      (fun t => decide (t.faultCause = .crcReuse ∧ t.faultInfo = 0x03000000)) = true ∧
    nextIs (exec (.curRead 0) (sized 7))
      (fun t => decide (t.faultCause = .cursorWidth ∧ t.faultInfo = 0x10000000)) = true ∧
    nextIs (exec (.curRead 1) { sized 2 with off := 2 })
      (fun t => decide (t.faultCause = .cursorBounds ∧ t.faultInfo = 0x10000001)) = true ∧
    nextIs (exec (.busRd .word 0x0002C) State.reset)
      (fun t => decide (t.faultCause = .uninitRead ∧ t.faultInfo = 0x2C)) = true := by
  decide +kernel

/-- A DECODE that fails, and one that faults (V-COD-18, V-COD-16). -/
theorem witness_DecodeFailuresAndFaultsNeverMix :
    nextIs (exec .decode (changed 3 0x02))
      (fun t => decide (t.result ≠ (changed 3 0x02).result)) = true ∧
    nextIs (exec .decode (sized 7))
      (fun t => decide (t.faultCause ≠ (sized 7).faultCause)) = true := by decide +kernel

theorem witness_OnlyDecodeWritesResult :
    nextIs (exec (.busWr .word 0x00000 0x21000000) full)
      (fun t => decide (t.result ≠ full.result)) = true ∧
    nextIs (exec .decode (sized 7)) (fun t => decide (t.faultCause ≠ .none)) = true := by
  decide +kernel

theorem witness_OnlyCrcCommandsWriteTheCrcUnit :
    nextIs (exec (.crcAdd 0x31) State.reset)
      (fun t => decide (t.crcReg ≠ State.reset.crcReg)) = true ∧
    nextIs (exec .crcInit finalized) (fun t => decide (t.crcState ≠ finalized.crcState)) = true ∧
    nextIs (exec .crcFinal State.reset)
      (fun t => decide (t.crcVal ≠ State.reset.crcVal)) = true := by decide +kernel

theorem witness_OnlyResetClearsAValidBit : ∃ t, step full = .next t ∧
    (∀ rest, full.host ≠ .reset :: rest) ∧ full.id ≠ none ∧ full.cnt ≠ none ∧ full.len ≠ none ∧
    full.flen ≠ none ∧ full.data ≠ none ∧ full.crcVal ≠ none ∧ full.fbuf.read 7 ≠ none ∧
    full.pbuf.read 0 ≠ none := by
  refine ⟨full, rfl, fun rest => ?_, by decide +kernel⟩
  show [] ≠ _
  exact (List.cons_ne_nil _ _).symm

/-- Each group of instructions completes from `full`. -/
theorem witness_InstructionFrames :
    (∀ i ∈ [Instr.crcInit, .crcFinal, .crcAdd 0x31, .curRead 4, .curWrite 3, .encode, .decode,
        .busRd .byte 0x10000, .busWr .byte 0x10000 0x5A, .busWr .word 0x00010 0xFFFF],
      nextIs (exec i full) (fun t => decide (t.faultCause = .none)) = true) ∧
    full.len = some 1 ∧ (AccessSize.word ≠ .word ∨ (0x00010#20 : Addr) ≠ 0x00000#20) := by
  decide +kernel

end Sys2Proof.Tests
end

section
/-! PROOFS. STATUS bit by bit, a write of a register that is not CMD, and the statement about STATUS
(10_state.md R18 to R21). -/

namespace Sys2Proof.Machine

open Sys2Proof.Claims

variable {s : State}

theorem DecodeResult.code_eq_resultNumber (r : DecodeResult) :
    r.code = BitVec.ofNat 3 (resultNumber r) := by
  cases r <;> rfl

/-! ### STATUS, one bit at a time (10_state.md R18) -/

theorem State.statusWord_getLsbD (s : State) (i : Nat) :
    s.statusWord.getLsbD i = (decide (i < 32) &&
      if i < 3 then s.result.code.getLsbD i
      else if i - 3 < 1 then s.faultedBit.getLsbD (i - 3)
      else s.crcFinalBit.getLsbD (i - 3 - 1)) := by
  rw [State.statusWord, BitVec.getLsbD_setWidth, BitVec.getLsbD_append, BitVec.getLsbD_append]

theorem State.statusWord_getLsbD_result {i : Nat} (hi : i < 3) :
    s.statusWord.getLsbD i = s.result.code.getLsbD i := by
  have h32 : i < 32 := by omega
  simp only [State.statusWord_getLsbD, hi, h32, decide_true, Bool.true_and, if_true]

theorem State.statusWord_getLsbD_three : s.statusWord.getLsbD 3 = s.isFaulted := by
  rw [State.statusWord_getLsbD]
  simp [State.faultedBit]

theorem State.statusWord_getLsbD_four :
    s.statusWord.getLsbD 4 = decide (s.crcState = .final) := by
  rw [State.statusWord_getLsbD]
  simp [State.crcFinalBit]

theorem State.statusWord_getLsbD_of_ge {i : Nat} (hi : 5 ≤ i) : s.statusWord.getLsbD i = false := by
  rw [State.statusWord, BitVec.getLsbD_setWidth, BitVec.getLsbD_of_ge _ _ hi, Bool.and_false]

/-! ### STATUS, its fields -/

theorem State.statusWord_result :
    s.statusWord.extractLsb' 0 3 = BitVec.ofNat 3 (resultNumber s.result) := by
  rw [← DecodeResult.code_eq_resultNumber]
  ext i hi
  rw [BitVec.getElem_extractLsb', Nat.zero_add, State.statusWord_getLsbD_result hi,
    BitVec.getLsbD_eq_getElem hi]

theorem State.statusWord_reserved : s.statusWord.extractLsb' 5 27 = 0#27 := by
  ext i hi
  rw [BitVec.getElem_extractLsb', State.statusWord_getLsbD_of_ge (Nat.le_add_right 5 i),
    BitVec.getElem_zero]

/-! ### Register writes -/

/-- A BUS_WR of a register other than CMD is the register's write (20_memory.md R56). -/
theorem writeBody_regAddr {r : Reg} (hr : r ≠ .cmd) (w : Word) :
    writeBody .word (regAddr r) w s = regWriteBody r w s := by
  have hplace : place .word (regAddr r) = some (.register r) := place_eq_register.mpr ⟨rfl, rfl⟩
  have hcmd : some (Place.register r) ≠ some (.register .cmd) := by simpa using hr
  rw [writeBody, hplace, if_neg hcmd, busWriteBody]

/-- A register write that faults takes the fault record and nothing else (60_exceptions.md R115). -/
theorem exec_busWr_regAddr_of_error {r : Reg} (hr : r ≠ .cmd) {w : Word} {e : Raised}
    (hs : s.faultCause = .none) (he : regWriteBody r w s = .error e) :
    exec (.busWr .word (regAddr r) w) s = .next (raised s e.cause e.info) := by
  rw [exec_busWr, transact_of_clear hs, writeBody_regAddr hr, he, settle_error,
    State.raise_of_clear hs, raised]

end Sys2Proof.Machine

namespace Sys2Proof.Claims

open Sys2Proof.Machine

/-- Settles O42: each field is a slice of STATUS's three parts, and STATUS is one of the registers
whose write faults. -/
theorem statusFields : Obligations.StatusFields := by
  refine ⟨fun s => ⟨State.statusWord_result, ?faulted, ?final, State.statusWord_reserved, ?write⟩,
    ?reset⟩
  case faulted => rw [State.statusWord_getLsbD_three, State.isFaulted_eq_true]
  case final => rw [State.statusWord_getLsbD_four, decide_eq_true_iff]
  case write =>
    intro w hs
    exact exec_busWr_regAddr_of_error (r := .status) (by decide) hs rfl
  case reset => decide

end Sys2Proof.Claims
end

section
/-! PROOFS. Which addresses a host transaction faults on, what a BUS_WR stores and what a BUS_RD of a
register returns, and the statements about them (20_memory.md R52, R54, R56). -/

namespace Sys2Proof.Machine

open Sys2Proof.Claims

variable {s t : State}

/-! ### R52's conditions as the address map -/

/-- Without the read-only registers of item 4, R52's conditions say that nothing is mapped there. -/
theorem busErrorCondition_read {size : AccessSize} {addr : Addr} :
    busErrorCondition false size addr ↔ place size addr = none := by
  rw [place_numeric]
  simp only [busErrorCondition, Bool.false_eq_true, false_and, false_or]
  split
  · rename_i hwin
    cases size with
    | byte => simp [hwin]
    | word =>
      simp only [if_true, Option.map_eq_none_iff, regAt_eq_none hwin, ne_eq, not_true_eq_false,
        reduceCtorEq, not_false_eq_true, false_or, and_true]
      omega
  · split
    · cases size <;> simp <;> omega
    · split
      · cases size <;> simp <;> omega
      · simp only [iff_true]
        omega

/-- A write also faults on the five read-only registers (20_memory.md R52 item 4). -/
theorem busErrorCondition_write {size : AccessSize} {addr : Addr} :
    busErrorCondition true size addr ↔ place size addr = none ∨
      (size = .word ∧ (addr = 0x04#20 ∨ addr = 0x08#20 ∨ addr = 0x0C#20 ∨ addr = 0x28#20 ∨
        addr = 0x2C#20)) := by
  rw [← busErrorCondition_read]
  simp only [busErrorCondition, ← BitVec.toNat_inj, BitVec.toNat_ofNat, Bool.false_eq_true,
    false_and, false_or, true_and]
  cases size <;> simp <;> omega

/-! ### A BUS_WR of a block that is not faulted -/

theorem exec_busWr_of_ok {size : AccessSize} {addr : Addr} {w : Word} (hs : s.faultCause = .none)
    (h : writeBody size addr w s = .ok t) : exec (.busWr size addr w) s = .next t := by
  rw [exec_busWr, transact_of_clear hs, h, settle_ok]

theorem exec_busWr_of_error {size : AccessSize} {addr : Addr} {w : Word} {e : Raised}
    (hs : s.faultCause = .none) (h : writeBody size addr w s = .error e) :
    exec (.busWr size addr w) s = .next (raised s e.cause e.info) := by
  rw [exec_busWr, transact_of_clear hs, h, settle_error, State.raise_of_clear hs, raised]

/-- A write that meets one of R52's conditions stores nothing and faults with the address. -/
theorem writeBody_of_busErrorCondition {size : AccessSize} {addr : Addr}
    (h : busErrorCondition true size addr) (w : Word) :
    writeBody size addr w s = .error ⟨.busError, addrInfo addr⟩ := by
  rcases busErrorCondition_write.mp h with hp | ⟨rfl, rfl | rfl | rfl | rfl | rfl⟩
  · rw [writeBody, hp, if_neg (by simp), busWriteBody]
  · exact writeBody_regAddr (r := .status) (by decide) w
  · exact writeBody_regAddr (r := .fault) (by decide) w
  · exact writeBody_regAddr (r := .faultInfo) (by decide) w
  · exact writeBody_regAddr (r := .crcReg) (by decide) w
  · exact writeBody_regAddr (r := .crcVal) (by decide) w

theorem exec_busWr_of_busErrorCondition {size : AccessSize} {addr : Addr}
    (hs : s.faultCause = .none) (h : busErrorCondition true size addr) (w : Word) :
    exec (.busWr size addr w) s = .next (raised s .busError (addr.setWidth 32)) :=
  exec_busWr_of_error hs (writeBody_of_busErrorCondition h w)

/-- No command raises BUS_ERROR (60_exceptions.md R113). -/
theorem commandBody_error_ne_busError {i : Instr} {e : Raised} (h : commandBody i s = .error e) :
    e.cause ≠ .busError := by
  rcases commandBody_error_cases h with ⟨h, _⟩ | ⟨h, _⟩ | ⟨h, _⟩ | ⟨h, _⟩ <;> rw [h] <;> decide

/-- A write's fault is no BUS_ERROR unless one of R52's conditions holds. -/
theorem writeBody_error_ne_busError {size : AccessSize} {addr : Addr} {w : Word} {e : Raised}
    (hc : ¬ busErrorCondition true size addr) (h : writeBody size addr w s = .error e) :
    e.cause ≠ .busError := by
  rcases writeBody_error_cases h with ⟨_, hp⟩ | ⟨rfl, _⟩ | ⟨_, _, rfl, _⟩ | ⟨_, _, _, _, _, h⟩
  · exact absurd (busErrorCondition_write.mpr hp) hc
  · simp
  · simp
  · exact commandBody_error_ne_busError h

/-- A command that completes records no fault. -/
theorem commandBody_ok_faultCause {i : Instr} (hi : i.isCommand = true)
    (h : commandBody i s = .ok t) : t.faultCause = s.faultCause := by
  rcases commandBody_ok_cases hi h with ⟨_, rfl⟩ | ⟨_, _, _, rfl⟩ | ⟨_, _, rfl⟩ |
    ⟨_, _, _, _, _, _, rfl⟩ | ⟨_, _, _, _, _, _, _, rfl⟩ | ⟨_, _, _, _, _, _, _, rfl⟩ |
    ⟨_, _, _, _, _, rfl⟩ | ⟨_, _, _, _, _, _, _, rfl⟩ <;> rfl

/-- A write that completes records no fault. -/
theorem writeBody_ok_faultCause {size : AccessSize} {addr : Addr} {w : Word}
    (h : writeBody size addr w s = .ok t) : t.faultCause = s.faultCause := by
  rcases writeBody_ok_cases h with ⟨_, _, i, hi, _, h⟩ | ⟨_, _, rfl⟩ | ⟨_, _, rfl⟩ | ⟨_, _, rfl⟩ |
    ⟨_, _, rfl⟩ | ⟨_, _, rfl⟩ | ⟨_, _, rfl⟩ | ⟨_, _, _, _, rfl⟩ | ⟨_, _, _, _, rfl⟩
  · exact commandBody_ok_faultCause hi h
  all_goals rfl

/-- A write that meets none of R52's conditions takes no BUS_ERROR. -/
theorem exec_busWr_no_busError {size : AccessSize} {addr : Addr} (hs : s.faultCause = .none)
    (hc : ¬ busErrorCondition true size addr) (w : Word) :
    ∃ t, exec (.busWr size addr w) s = .next t ∧ t.faultCause ≠ .busError := by
  cases h : writeBody size addr w s with
  | ok t =>
    refine ⟨t, exec_busWr_of_ok hs h, ?_⟩
    rw [writeBody_ok_faultCause h, hs]
    decide
  | error e => exact ⟨_, exec_busWr_of_error hs h, writeBody_error_ne_busError hc h⟩

/-! ### A BUS_RD of a block that is not faulted -/

theorem exec_busRd_of_ok {size : AccessSize} {addr : Addr} {v : Word} (hs : s.faultCause = .none)
    (h : busReadValue size addr s = .ok v) : exec (.busRd size addr) s = .next (got s v) := by
  show execBusRd size addr s = _
  rw [execBusRd_of_clear hs, h, settleRead_ok, State.returning, got]

theorem exec_busRd_of_error {size : AccessSize} {addr : Addr} {e : Raised}
    (hs : s.faultCause = .none) (h : busReadValue size addr s = .error e) :
    exec (.busRd size addr) s = .next (raised s e.cause e.info) := by
  show execBusRd size addr s = _
  rw [execBusRd_of_clear hs, h, settleRead_error, State.raise_of_clear hs, raised]

/-- A read that meets one of R52's conditions faults with the address. -/
theorem exec_busRd_of_busErrorCondition {size : AccessSize} {addr : Addr}
    (hs : s.faultCause = .none) (h : busErrorCondition false size addr) :
    exec (.busRd size addr) s = .next (raised s .busError (addr.setWidth 32)) := by
  have hv : busReadValue size addr s = .error ⟨.busError, addrInfo addr⟩ := by
    rw [busReadValue, busErrorCondition_read.mp h]
  exact exec_busRd_of_error hs hv

/-- A read that meets none of R52's conditions takes no BUS_ERROR. -/
theorem exec_busRd_no_busError {size : AccessSize} {addr : Addr} (hs : s.faultCause = .none)
    (hc : ¬ busErrorCondition false size addr) :
    ∃ t, exec (.busRd size addr) s = .next t ∧ t.faultCause ≠ .busError := by
  cases h : busReadValue size addr s with
  | ok v =>
    refine ⟨_, exec_busRd_of_ok hs h, ?_⟩
    show s.faultCause ≠ .busError
    rw [hs]
    decide
  | error e =>
    refine ⟨_, exec_busRd_of_error hs h, ?_⟩
    show e.cause ≠ .busError
    rcases busReadValue_error_cases h with ⟨_, hp⟩ | ⟨he, _⟩
    · exact absurd (busErrorCondition_read.mpr hp) hc
    · rw [he]
      decide

/-! ### A BUS_RD of a register -/

theorem busReadValue_regAddr (r : Reg) : busReadValue .word (regAddr r) s = readReg s r := by
  rw [busReadValue, place_eq_register.mpr ⟨rfl, rfl⟩]

/-- A register whose value does not depend on the block being faulted (60_exceptions.md R116). -/
theorem exec_busRd_regAddr_faulted_or_not {r : Reg} {v : Word} (hclear : readReg s r = .ok v)
    (hfaulted : faultedReadValue .word (regAddr r) s = v) :
    exec (.busRd .word (regAddr r)) s = .next (got s v) := by
  by_cases hs : s.faultCause = .none
  · exact exec_busRd_of_ok hs ((busReadValue_regAddr r).trans hclear)
  · show execBusRd .word (regAddr r) s = _
    rw [execBusRd_of_faulted hs, hfaulted, State.returning, got]

/-- A read of CMD returns 0 in every state (20_memory.md R54). -/
theorem exec_busRd_cmd (s : State) : exec (.busRd .word 0x00000#20) s = .next (got s 0#32) :=
  exec_busRd_regAddr_faulted_or_not (r := .cmd) rfl rfl

/-- A register that carries a valid bit: its value if valid, else UNINIT_READ of its address
(20_memory.md R54). -/
theorem exec_busRd_validated {r : Reg} {n : Nat} {o : Option (BitVec n)} (hs : s.faultCause = .none)
    (hread : readReg s r = (validated r o).map (BitVec.setWidth 32)) :
    (∀ v, o = some v → exec (.busRd .word (regAddr r)) s = .next (got s (v.setWidth 32))) ∧
    (o = none → exec (.busRd .word (regAddr r)) s =
      .next (raised s .uninitRead (addrInfo (regAddr r)))) := by
  rw [← busReadValue_regAddr] at hread
  constructor
  · rintro v rfl
    exact exec_busRd_of_ok hs hread
  · rintro rfl
    exact exec_busRd_of_error hs hread

/-- DATA fills the word, so its zero extension is its value. -/
theorem readReg_data : readReg s .data = (validated .data s.data).map (BitVec.setWidth 32) := by
  cases h : s.data <;> simp [readReg, validated, h, Except.map]

/-- STATUS's three parts side by side, as a number (10_state.md R18). -/
theorem statusFields_eq_ofNat (final faulted : Bool) (r : DecodeResult) :
    (BitVec.ofBool final ++ BitVec.ofBool faulted ++ r.code).setWidth 32 = BitVec.ofNat 32
      ((if final then 16 else 0) + (if faulted then 8 else 0) + resultNumber r) := by
  cases r <;> cases final <;> cases faulted <;> rfl

/-- STATUS as a number, CRC_FINAL at bit 4 and FAULTED at bit 3 (10_state.md R18). -/
theorem State.statusWord_eq_ofNat (s : State) :
    s.statusWord = BitVec.ofNat 32 ((if s.crcState = .final then 16 else 0) +
      (if s.faultCause = .none then 0 else 8) + resultNumber s.result) := by
  rw [State.statusWord, State.crcFinalBit, State.faultedBit, statusFields_eq_ofNat]
  simp only [State.isFaulted, decide_eq_true_eq, ne_eq, ite_not]

theorem State.faultWord_eq_ofNat (s : State) :
    s.faultWord = BitVec.ofNat 32 (causeNumber s.faultCause) := by
  rw [State.faultWord]
  cases s.faultCause <;> rfl

/-! ### A BUS_WR of a register field -/

/-- No bit of `w` is set above its low `n` bits. -/
theorem extractLsb'_high_eq_zero {n m : Nat} (hnm : n + m = 32) (w : Word) :
    w.extractLsb' n m = 0#m ↔ w.toNat < 2 ^ n := by
  have hhigh : w.toNat / 2 ^ n < 2 ^ m := by
    rw [Nat.div_lt_iff_lt_mul (Nat.two_pow_pos n), ← Nat.pow_add, Nat.add_comm, hnm]
    exact w.isLt
  rw [← BitVec.toNat_inj, BitVec.extractLsb'_toNat, BitVec.toNat_zero, Nat.shiftRight_eq_div_pow,
    Nat.mod_eq_of_lt hhigh, Nat.div_eq_zero_iff_lt (Nat.two_pow_pos n)]

/-- A register write through a field of `n` bits: it stores the field when the `m` bits above are 0,
and else faults FIELD_RANGE with the register's address (20_memory.md R56). -/
theorem exec_busWr_field {r : Reg} {w : Word} {n m : Nat} {store : BitVec n → State}
    (hs : s.faultCause = .none) (hr : r ≠ .cmd) (hnm : n + m = 32)
    (hbody : regWriteBody r w s = (inField n r w).map store) :
    (w.extractLsb' n m = 0#m →
      exec (.busWr .word (regAddr r) w) s = .next (store (w.extractLsb' 0 n))) ∧
    (w.extractLsb' n m ≠ 0#m →
      exec (.busWr .word (regAddr r) w) s = .next (raised s .fieldRange (addrInfo (regAddr r)))) := by
  rw [ne_eq, extractLsb'_high_eq_zero hnm]
  constructor
  · intro hw
    have hfield : inField n r w = .ok (w.extractLsb' 0 n) :=
      inField_eq_ok.mpr ⟨hw, (BitVec.setWidth_eq_extractLsb' (by omega)).symm⟩
    rw [hfield] at hbody
    exact exec_busWr_of_ok hs ((writeBody_regAddr hr w).trans hbody)
  · intro hw
    rw [inField_eq_error.mpr ⟨hw, rfl⟩] at hbody
    exact exec_busWr_regAddr_of_error hr hs hbody

/-! ### A BUS_WR of CMD and of a buffer byte -/

/-- A word that decodes to no command faults ILLEGAL_CMD with the word (30_encoding.md R69, R70). -/
theorem illegalWord_of_decodeCmd_error {w : Word} {e : DecodeError} (hs : s.faultCause = .none)
    (h : decodeCmd w = .error e) : illegalWord s w :=
  exec_busWr_of_error (e := ⟨.illegalCmd, w⟩) hs (executeBody_of_error h)

theorem Memory.storedAt_store (m : Memory) (a : Nat) (bs : List Byte) : storedAt m (m.store a bs) a bs := by
  refine ⟨fun k hk => ?_, fun x hx => Memory.read_store_outside hx⟩
  rw [Memory.read_store_inside (Nat.le_add_right a k) (Nat.add_lt_add_left hk a),
    Nat.add_sub_cancel_left]

/-- A BUS_WR of a byte of FBUF stores w[7:0] there (20_memory.md R56). -/
theorem exec_busWr_frame {addr : Addr} {a : Nat} (hs : s.faultCause = .none)
    (hp : place .byte addr = some (.frame a)) (w : Word) :
    exec (.busWr .byte addr w) s = .next (s.storeFrame a [w.extractLsb' 0 8]) := by
  refine exec_busWr_of_ok hs ?_
  rw [writeBody, hp, if_neg (by simp), busWriteBody, BitVec.setWidth_eq_extractLsb' (by omega)]

/-- A BUS_WR of a byte of PBUF stores w[7:0] there (20_memory.md R56). -/
theorem exec_busWr_payload {addr : Addr} {a : Nat} (hs : s.faultCause = .none)
    (hp : place .byte addr = some (.payload a)) (w : Word) :
    exec (.busWr .byte addr w) s = .next (s.storePayload a [w.extractLsb' 0 8]) := by
  refine exec_busWr_of_ok hs ?_
  rw [writeBody, hp, if_neg (by simp), busWriteBody, BitVec.setWidth_eq_extractLsb' (by omega)]

end Sys2Proof.Machine

namespace Sys2Proof.Claims

open Sys2Proof.Machine

/-- Settles O36: the conditions of R52 are the addresses that reach no place, with the read-only
registers for a write. -/
theorem busErrorExactlyOnItsConditions : Obligations.BusErrorExactlyOnItsConditions :=
  fun s _ _ w hs =>
    ⟨exec_busRd_of_busErrorCondition hs, exec_busRd_no_busError hs,
      fun h => exec_busWr_of_busErrorCondition hs h w, fun h => exec_busWr_no_busError hs h w,
      exec_busRd_cmd s⟩

/-- Settles O39: a write of CMD is Execute(w), a register write is a field write, and a buffer write
is a store of one byte. -/
theorem busWriteEffects : Obligations.BusWriteEffects := by
  refine fun s w => ⟨fun size addr hs => execBusWr_of_faulted hs size addr w, fun hs => ?_⟩
  obtain ⟨idStored, idRange⟩ := exec_busWr_field (r := .id) (w := w) hs (by decide)
    (show 16 + 16 = 32 from rfl) rfl
  obtain ⟨cntStored, cntRange⟩ := exec_busWr_field (r := .cnt) (w := w) hs (by decide)
    (show 8 + 24 = 32 from rfl) rfl
  obtain ⟨lenStored, lenRange⟩ := exec_busWr_field (r := .len) (w := w) hs (by decide)
    (show 16 + 16 = 32 from rfl) rfl
  obtain ⟨flenStored, flenRange⟩ := exec_busWr_field (r := .flen) (w := w) hs (by decide)
    (show 17 + 15 = 32 from rfl) rfl
  obtain ⟨offStored, offRange⟩ := exec_busWr_field (r := .off) (w := w) hs (by decide)
    (show 17 + 15 = 32 from rfl) rfl
  refine ⟨fun size addr h => exec_busWr_of_busErrorCondition hs h w, ?command,
    fun e he => illegalWord_of_decodeCmd_error hs he, idStored, idRange, cntStored, cntRange,
    lenStored, lenRange, flenStored, flenRange, offStored, offRange, ?data, ?frame, ?payload⟩
  case command =>
    intro i hi
    exact (execBusWr_cmd hs w).trans (execute_of_decode hi)
  case data => exact exec_busWr_of_ok hs (writeBody_regAddr (r := .data) (by decide) w)
  case frame =>
    intro addr hlo hhi
    have hp : place .byte addr = some (.frame (addr.toNat - 0x10000)) :=
      place_eq_frame.mpr ⟨rfl, by omega, by omega⟩
    exact ⟨_, Memory.storedAt_store _ _ _, exec_busWr_frame hs hp w⟩
  case payload =>
    intro addr hlo hhi
    have hp : place .byte addr = some (.payload (addr.toNat - 0x30000)) :=
      place_eq_payload.mpr ⟨rfl, by omega, by omega⟩
    exact ⟨_, Memory.storedAt_store _ _ _, exec_busWr_payload hs hp w⟩

/-- Settles O37: CMD, STATUS, FAULT and FAULTINFO answer faulted or not, and the others are a plain
register or one that carries a valid bit. -/
theorem registerReadValues : Obligations.RegisterReadValues := by
  refine fun s => ⟨exec_busRd_cmd s, ?status, ?fault,
    exec_busRd_regAddr_faulted_or_not (r := .faultInfo) rfl rfl, fun hs => ?clear⟩
  case status =>
    rw [← State.statusWord_eq_ofNat]
    exact exec_busRd_regAddr_faulted_or_not (r := .status) rfl rfl
  case fault =>
    rw [← State.faultWord_eq_ofNat]
    exact exec_busRd_regAddr_faulted_or_not (r := .fault) rfl rfl
  case clear =>
    obtain ⟨idValue, idInvalid⟩ := exec_busRd_validated (r := .id) hs rfl
    obtain ⟨cntValue, cntInvalid⟩ := exec_busRd_validated (r := .cnt) hs rfl
    obtain ⟨lenValue, lenInvalid⟩ := exec_busRd_validated (r := .len) hs rfl
    obtain ⟨flenValue, flenInvalid⟩ := exec_busRd_validated (r := .flen) hs rfl
    obtain ⟨dataValue, dataInvalid⟩ := exec_busRd_validated hs readReg_data
    obtain ⟨crcValValue, crcValInvalid⟩ := exec_busRd_validated (r := .crcVal) hs rfl
    simp only [BitVec.setWidth_eq] at dataValue
    exact ⟨idValue, idInvalid, cntValue, cntInvalid, lenValue, lenInvalid, flenValue, flenInvalid,
      exec_busRd_of_ok hs (busReadValue_regAddr .off), dataValue, dataInvalid,
      exec_busRd_of_ok hs (busReadValue_regAddr .crcReg), crcValValue, crcValInvalid⟩

end Sys2Proof.Claims
end

section
/-! PROOFS. Which words the encoder answers, the decoder as its inverse on command words, the decoder
of a descriptor by its fields, and the statements about them (30_encoding.md R66 to R73). -/

namespace Sys2Proof

open Sys2Proof.Machine

/-! ### The words of the encoder -/

/-- An operand of `n` bits leaves the `m` bits of ARG above it zero (30_encoding.md R67). -/
theorem extractLsb'_cmdWord_above {n m : Nat} (hnm : n + m = 24) (op : BitVec 8) (x : BitVec n) :
    (cmdWord op (x.setWidth 24)).extractLsb' n m = 0#m := by
  apply BitVec.eq_of_getLsbD_eq
  intro i hi
  have harg : n + i < 24 := by omega
  rw [BitVec.getLsbD_extractLsb', cmdWord_getLsbD, if_pos harg, BitVec.getLsbD_setWidth,
    BitVec.getLsbD_of_ge x _ (Nat.le_add_right n i), Bool.and_false, Bool.and_false,
    BitVec.getLsbD_zero]

/-- The fields of every command word: a listed OP, and zero where the row of that OP says "0"
(30_encoding.md R66, R67). -/
theorem fields_of_encodeInstr {i : Instr} {w : Word} (h : encodeInstr i = .command w) :
    opField w ∈ [0x01#8, 0x02#8, 0x03#8, 0x10#8, 0x11#8, 0x20#8, 0x21#8] ∧
    (opField w ∈ [0x01#8, 0x03#8, 0x20#8, 0x21#8] → argField w = 0#24) ∧
    (opField w = 0x02#8 → w.extractLsb' 8 16 = 0#16) ∧
    (opField w ∈ [0x10#8, 0x11#8] → w.extractLsb' 3 21 = 0#21) := by
  cases i <;> cases h
  case crcInit => decide
  case crcAdd b => simp [crcAddWord, extractLsb'_cmdWord_above (n := 8) (m := 16)]
  case crcFinal => decide
  case curRead n => simp [curReadWord, extractLsb'_cmdWord_above (n := 3) (m := 21)]
  case curWrite n => simp [curWriteWord, extractLsb'_cmdWord_above (n := 3) (m := 21)]
  case encode => decide
  case decode => decide

/-! ### The decoder of command words is the encoder's inverse -/

/-- A word whose ARG bits from `n` up are zero is its OP and its low `n` bits. -/
theorem cmdWord_of_argField_shift {n : Nat} {w : Word} (hn : n ≤ 24)
    (h : argField w >>> n = 0#24) :
    cmdWord (opField w) ((w.extractLsb' 0 n).setWidth 24) = w := by
  have hlow : w.extractLsb' 0 n = (argField w).setWidth n := by
    rw [← extractLsb'_cmdWord hn (opField w) (argField w), cmdWord_fields]
  rw [hlow, (argField_shift_eq_zero _).mp h, cmdWord_fields]

/-- One row of the decoder: the command it answers, with the operand `x` of `n` bits, has the word it
was read from. -/
theorem encodeInstr_of_withZeroArgFrom {n : Nat} {op : BitVec 8} {w : Word} {i j : Instr}
    {x : BitVec n} (h : withZeroArgFrom n w j = .ok i) (hn : n ≤ 24) (hop : opField w = op)
    (hx : w.extractLsb' 0 n = x) (hj : encodeInstr j = .command (cmdWord op (x.setWidth 24))) :
    encodeInstr i = .command w := by
  obtain ⟨harg, rfl⟩ := withZeroArgFrom_eq_ok.mp h
  rw [hj, ← hop, ← hx, cmdWord_of_argField_shift hn harg]

/-- A command that decodes from a word has that word (30_encoding.md R71). -/
theorem encodeInstr_of_decodeCmd {w : Word} {i : Instr} (h : decodeCmd w = .ok i) :
    encodeInstr i = .command w := by
  unfold decodeCmd at h
  split_ifs at h with hInit hAdd hFinal hRead hWrite hEncode hDecode
  · exact encodeInstr_of_withZeroArgFrom h (by decide) hInit (BitVec.eq_nil _) rfl
  · exact encodeInstr_of_withZeroArgFrom h (by decide) hAdd rfl rfl
  · exact encodeInstr_of_withZeroArgFrom h (by decide) hFinal (BitVec.eq_nil _) rfl
  · exact encodeInstr_of_withZeroArgFrom h (by decide) hRead rfl rfl
  · exact encodeInstr_of_withZeroArgFrom h (by decide) hWrite rfl rfl
  · exact encodeInstr_of_withZeroArgFrom h (by decide) hEncode (BitVec.eq_nil _) rfl
  · exact encodeInstr_of_withZeroArgFrom h (by decide) hDecode (BitVec.eq_nil _) rfl

/-- The word of a command decodes to it (30_encoding.md R71). -/
theorem decodeCmd_of_encodeInstr {w : Word} {i : Instr} (h : encodeInstr i = .command w) :
    decodeCmd w = .ok i := by
  cases i <;> cases h
  case crcInit => rfl
  case crcAdd b =>
    simp [decodeCmd, crcAddWord, withZeroArgFrom, argField_shift_eq_zero, extractLsb'_cmdWord]
  case crcFinal => rfl
  case curRead n =>
    simp [decodeCmd, curReadWord, withZeroArgFrom, argField_shift_eq_zero, extractLsb'_cmdWord]
  case curWrite n =>
    simp [decodeCmd, curWriteWord, withZeroArgFrom, argField_shift_eq_zero, extractLsb'_cmdWord]
  case encode => rfl
  case decode => rfl

/-! ### The decoder of descriptors, by its fields -/

/-- 1-byte data has W[31:8] = 0, and 4-byte data is any (30_encoding.md R73). -/
theorem AccessSize.holds_iff {size : AccessSize} {w : Word} :
    size.holds w = true ↔ (size = .byte → w.extractLsb' 8 24 = 0#24) := by
  rw [extractLsb'_high_eq_zero rfl]
  cases size <;> simp [AccessSize.holds]

theorem decodeBus_of_reserved {d : Descriptor} (h : d.extractLsb' 52 10 ≠ 0#10) :
    decodeBus d = .error .reservedDescriptorBits := by
  rw [decodeBus, if_pos h]

theorem decodeBus_of_read {d : Descriptor} (hz : d.extractLsb' 52 10 = 0#10)
    (hdir : d.getLsbD 63 = false) (hdata : dataField d = 0#32) :
    decodeBus d = .ok (.busRd (sizeField d) (addrField d)) := by
  simp only [decodeBus, hz, hdir, hdata, ne_eq, not_true_eq_false, Bool.false_eq_true, if_false,
    if_true]

theorem decodeBus_of_write {d : Descriptor} (hz : d.extractLsb' 52 10 = 0#10)
    (hdir : d.getLsbD 63 = true) (hdata : (sizeField d).holds (dataField d) = true) :
    decodeBus d = .ok (.busWr (sizeField d) (addrField d) (dataField d)) := by
  simp only [decodeBus, hz, hdir, hdata, ne_eq, not_true_eq_false, if_false, if_true]

end Sys2Proof

namespace Sys2Proof.Claims

open Sys2Proof.Machine

/-- A word that no instruction encodes to faults ILLEGAL_CMD with the word (30_encoding.md R71). -/
theorem illegalWord_of_not_encoded {w : Word} {s : State} (hs : s.faultCause = .none)
    (h : ∀ i, encodeInstr i ≠ .command w) : illegalWord s w := by
  cases hd : decodeCmd w with
  | ok i => exact absurd (encodeInstr_of_decodeCmd hd) (h i)
  | error e => exact illegalWord_of_decodeCmd_error hs hd

/-- Settles O11: the decoder splits the words into those a command encodes to and the rest. -/
theorem commandWordRunsOneCommandOrIsIllegal : Obligations.CommandWordRunsOneCommandOrIsIllegal := by
  intro w s hs
  by_cases h : ∃ i, encodeInstr i = .command w
  · obtain ⟨i, hi⟩ := h
    have hd := decodeCmd_of_encodeInstr hi
    exact .inl ⟨i, decodeCmd_isCommand hd, hi, (execBusWr_cmd hs w).trans (execute_of_decode hd)⟩
  · have h := not_exists.mp h
    exact .inr ⟨h, illegalWord_of_not_encoded hs h⟩

/-- Settles O12: a word some instruction encodes to has a listed OP and zeros where R67 says "0". -/
theorem reservedCommandWordsAreIllegal : Obligations.ReservedCommandWordsAreIllegal := by
  intro w s hs
  refine ⟨fun hop => ?opcode, fun hop harg => ?noOperand, fun hop harg => ?add,
    fun hop harg => ?cursor⟩
  all_goals
    refine illegalWord_of_not_encoded hs fun i hi => ?_
    obtain ⟨hlisted, hnoOperand, hadd, hcursor⟩ := fields_of_encodeInstr hi
  case opcode => exact hop hlisted
  case noOperand => exact harg (hnoOperand hop)
  case add => exact harg (hadd hop)
  case cursor => exact harg (hcursor hop)

/-- Settles O10: each clause is one branch of the decoder on the same fields. -/
theorem descriptorFieldsDecode : Obligations.DescriptorFieldsDecode := by
  refine fun d => ⟨fun hz i hi => ?reserved, decodeBus_of_read, fun hz hdir hdata => ?write⟩
  case reserved => cases (decodeBus_of_reserved hz).symm.trans hi
  case write => exact decodeBus_of_write hz hdir (AccessSize.holds_iff.mpr hdata)

end Sys2Proof.Claims
end

section
/-! PROOFS. CrcStep in its second form, its affine law over bytes and sequences, the three commands of
the CRC unit, and the statements about them (40_crc.md R77 to R86). -/

namespace Sys2Proof

/-- An operand of at most 24 bits stands in ARG's low bits, under its OP (30_encoding.md R65, R67). -/
theorem cmdWord_setWidth_eq_or {n : Nat} (hn : n ≤ 24) (op : BitVec 8) (x : BitVec n) :
    cmdWord op (x.setWidth 24) = cmdWord op 0#24 ||| x.setWidth 32 := by
  apply BitVec.eq_of_getLsbD_eq
  intro i hi
  simp only [BitVec.getLsbD_or, cmdWord_getLsbD, BitVec.getLsbD_setWidth, hi, decide_true,
    Bool.true_and]
  by_cases h : i < 24
  · simp [h]
  · simp [h, BitVec.getLsbD_of_ge x i (by omega)]

theorem crcAddWord_eq_or (b : Byte) : crcAddWord b = 0x02000000#32 ||| b.setWidth 32 :=
  cmdWord_setWidth_eq_or (by decide) 0x02#8 b

end Sys2Proof

namespace Sys2Proof.Machine

open Sys2Proof.Claims

variable {s t : State}

/-! ### The CRC function -/

/-- The 17-bit pseudocode of CrcStep and its equivalent form (40_crc.md R78). -/
theorem crcBit_eq_crcBitRule (r : Half) (b : Bool) : crcBit r b = crcBitRule r b := by
  apply BitVec.eq_of_getLsbD_eq
  intro i hi
  rw [crcBit_getLsbD r b i hi, crcBitRule, BitVec.getLsbD_xor, BitVec.getLsbD_shiftLeft]
  congr 1
  · cases i <;> simp [hi]
  · cases r.getLsbD 15 ^^ b <;> simp [Config.poly]

/-- For a fixed byte, a linear map of the register and a constant (40_crc.md R82). -/
theorem crcStep_eq_linear_xor_const (r : Half) (b : Byte) :
    crcStep r b = crcStep r 0#8 ^^^ crcStep 0#16 b := by
  rw [← crcStep_xor, BitVec.xor_zero, BitVec.zero_xor]

/-- XOR of two registers and of two equally long sequences is XOR of the results (40_crc.md R82). -/
theorem crcFold_xor {x y : List Byte} (h : x.length = y.length) (r q : Half) :
    (List.zipWith (· ^^^ ·) x y).foldl crcStep (r ^^^ q) =
      x.foldl crcStep r ^^^ y.foldl crcStep q := by
  induction x generalizing y r q with
  | nil =>
    obtain rfl : y = [] := List.eq_nil_of_length_eq_zero h.symm
    rfl
  | cons a x ih =>
    cases y with
    | nil => cases h
    | cons b y =>
      simp only [List.zipWith_cons_cons, List.foldl_cons, crcStep_xor]
      exact ih (Nat.succ.inj h) _ _

/-- SEED is the XOR of itself three times, so an odd number of sequences keeps it (40_crc.md R82). -/
theorem crcOver_xor3 {x y z : List Byte} (hxy : x.length = y.length) (hyz : y.length = z.length) :
    crcOver (xor3 x y z) = crcOver x ^^^ crcOver y ^^^ crcOver z := by
  have hseed : Config.seed = Config.seed ^^^ Config.seed ^^^ Config.seed := by decide
  have hlen : (List.zipWith (· ^^^ ·) x y).length = z.length := by
    rw [List.length_zipWith, hxy, hyz, Nat.min_self]
  calc crcOver (xor3 x y z)
    _ = (xor3 x y z).foldl crcStep (Config.seed ^^^ Config.seed ^^^ Config.seed) := by
      rw [← hseed, crcOver]
    _ = (List.zipWith (· ^^^ ·) x y).foldl crcStep (Config.seed ^^^ Config.seed) ^^^ crcOver z :=
      crcFold_xor hlen _ _
    _ = crcOver x ^^^ crcOver y ^^^ crcOver z :=
      congrArg (· ^^^ crcOver z) (crcFold_xor hxy _ _)

/-! ### A command of a block that is not faulted -/

theorem exec_command_of_ok {i : Instr} (hi : i.isCommand = true) (hs : s.faultCause = .none)
    (h : commandBody i s = .ok t) : exec i s = .next t := by
  rw [exec_command hi, transact_of_clear hs, h, settle_ok]

theorem exec_command_of_error {i : Instr} {e : Raised} (hi : i.isCommand = true)
    (hs : s.faultCause = .none) (h : commandBody i s = .error e) :
    exec i s = .next (raised s e.cause e.info) := by
  rw [exec_command hi, transact_of_clear hs, h, settle_error, State.raise_of_clear hs, raised]

/-- Writing a command's word to CMD runs the command (30_encoding.md R72). -/
theorem runsAs_of_encodeInstr {i : Instr} {w : Word} (hs : s.faultCause = .none)
    (h : encodeInstr i = .command w) : runsAs s w i :=
  ⟨h, (execBusWr_cmd hs w).trans (execute_of_decode (decodeCmd_of_encodeInstr h))⟩

/-! ### The commands of the CRC unit -/

theorem exec_crcInit (hs : s.faultCause = .none) :
    exec .crcInit s = .next { s with crcReg := 0xFFFF#16, crcState := .accum } :=
  exec_command_of_ok rfl hs rfl

theorem exec_crcAdd_of_accum (hs : s.faultCause = .none) (hc : s.crcState = .accum) (b : Byte) :
    exec (.crcAdd b) s = .next { s with crcReg := crcStep s.crcReg b } :=
  exec_command_of_ok rfl hs (if_neg (by simp [hc]))

theorem exec_crcAdd_of_final (hs : s.faultCause = .none) (hc : s.crcState = .final) (b : Byte) :
    exec (.crcAdd b) s = .next (raised s .crcReuse (crcAddWord b)) :=
  exec_command_of_error (e := ⟨.crcReuse, crcAddWord b⟩) rfl hs (if_pos hc)

theorem exec_crcFinal_of_accum (hs : s.faultCause = .none) (hc : s.crcState = .accum) :
    exec .crcFinal s =
      .next { s with crcVal := some (s.crcReg ^^^ 0xFFFF#16), crcState := .final } :=
  exec_command_of_ok rfl hs (if_neg (by simp [hc]))

theorem exec_crcFinal_of_final (hs : s.faultCause = .none) (hc : s.crcState = .final) :
    exec .crcFinal s = .next (raised s .crcReuse crcFinalWord) :=
  exec_command_of_error (e := ⟨.crcReuse, crcFinalWord⟩) rfl hs (if_pos hc)

/-- STATUS.CRC_FINAL of the state an instruction answers (10_state.md R21). -/
theorem statusWord_four_of_next {i : Instr} {u : State} (h : exec i s = .next u) :
    ∀ t, exec i s = .next t → t.statusWord.getLsbD 4 = decide (u.crcState = .final) := by
  intro t ht
  cases h.symm.trans ht
  exact State.statusWord_getLsbD_four

end Sys2Proof.Machine

namespace Sys2Proof.Claims

open Sys2Proof.Machine

/-- A word of an OP without operand whose ARG is not 0 is no command (30_encoding.md R67, R70). -/
theorem illegalWord_of_arg_ne_zero {s : State} {w : Word} (hs : s.faultCause = .none)
    (hop : w.extractLsb' 24 8 ∈ [0x01#8, 0x03#8, 0x20#8, 0x21#8])
    (harg : w.extractLsb' 0 24 ≠ 0#24) : illegalWord s w := by
  obtain ⟨_, hnoOperand, _, _⟩ := reservedCommandWordsAreIllegal w s hs
  exact hnoOperand hop harg

/-- Settles O17: the linear map is feeding a zero byte, the constant is the byte fed to a zero
register. -/
theorem crcIsAffine : Obligations.CrcIsAffine := by
  refine ⟨⟨fun r => crcStep r 0#8, fun r q => ?linear, fun b => ⟨crcStep 0#16 b, fun r => ?affine⟩⟩,
    fun _ _ _ => crcOver_xor3⟩
  case linear =>
    have h := crcStep_xor r q 0#8 0#8
    rwa [BitVec.xor_self] at h
  case affine => exact crcStep_eq_linear_xor_const r b

/-- Settles O14: both forms feed the byte's bits 7 down to 0, and they agree on each bit. -/
theorem crcStepFollowsTheBitRule : Obligations.CrcStepFollowsTheBitRule := by
  intro r b
  simp only [crcStep, List.foldl_cons, List.foldl_nil, crcBit_eq_crcBitRule]

/-- Settles O15: a fold over `bs ++ [b]` ends with `b`. -/
theorem crcOfASequenceIsAFold : Obligations.CrcOfASequenceIsAFold :=
  ⟨rfl, fun bs b => List.foldl_concat crcStep Config.seed b bs, fun _ => rfl, fun _ => rfl, rfl⟩

/-- Settles O18: CRC_INIT's body checks nothing, and a word of its OP has no operand bits. -/
theorem crcInitStartsANewInstance : Obligations.CrcInitStartsANewInstance := by
  intro s hs
  refine ⟨runsAs_of_encodeInstr hs rfl, exec_crcInit hs, statusWord_four_of_next (exec_crcInit hs),
    fun _ hop => illegalWord_of_arg_ne_zero hs (by simp [hop])⟩

/-- Settles O19: CRC_ADD's body checks CRC_STATE, and its word is its OP over the byte. -/
theorem crcAddMixesOneByte : Obligations.CrcAddMixesOneByte := by
  refine ⟨fun s b hs => ?_, by decide, by decide, by decide⟩
  rw [← crcAddWord_eq_or]
  refine ⟨runsAs_of_encodeInstr hs rfl, fun hc => exec_crcAdd_of_accum hs hc b,
    fun hc => exec_crcAdd_of_final hs hc b, fun w hop harg => ?illegal⟩
  obtain ⟨_, _, hadd, _⟩ := reservedCommandWordsAreIllegal w s hs
  exact hadd hop harg

/-- Settles O20: CRC_FINAL's body checks CRC_STATE, and a word of its OP has no operand bits. -/
theorem crcFinalReadsOutTheInverse : Obligations.CrcFinalReadsOutTheInverse := by
  intro s hs
  refine ⟨runsAs_of_encodeInstr hs rfl, fun hc => ?accum, exec_crcFinal_of_final hs,
    fun _ hop => illegalWord_of_arg_ne_zero hs (by simp [hop])⟩
  have hnext := exec_crcFinal_of_accum hs hc
  exact ⟨hnext, statusWord_four_of_next hnext⟩

end Sys2Proof.Claims
end

section
/-! PROOFS. The two forms of LeRead and of LeWrite, the cursor commands of a block that is not
faulted, and the statements about them (41_cursor.md R87 to R92). -/

namespace Sys2Proof

theorem curReadWord_eq_or (n : BitVec 3) : curReadWord n = 0x10000000#32 ||| n.setWidth 32 :=
  cmdWord_setWidth_eq_or (by decide) 0x10#8 n

theorem curWriteWord_eq_or (n : BitVec 3) : curWriteWord n = 0x11000000#32 ||| n.setWidth 32 :=
  cmdWord_setWidth_eq_or (by decide) 0x11#8 n

end Sys2Proof

namespace Sys2Proof.Machine

open Sys2Proof.Claims

variable {s : State} {n : BitVec 3}

/-! ### The little-endian primitives as the spec's loops -/

/-- The byte at the highest offset is the most significant one. -/
theorem leValue_concat (bs : List Byte) (b : Byte) :
    leValue (bs ++ [b]) = leValue bs ||| (b.setWidth 32 <<< (8 * bs.length)) := by
  induction bs with
  | nil => simp [leValue]
  | cons c bs ih =>
    calc leValue (c :: bs ++ [b])
      _ = c.setWidth 32 ||| ((leValue bs ||| (b.setWidth 32 <<< (8 * bs.length))) <<< 8) := by
        rw [List.cons_append, leValue, ih]
      _ = leValue (c :: bs) ||| (b.setWidth 32 <<< (8 * (c :: bs).length)) := by
        rw [BitVec.shiftLeft_or_distrib, ← BitVec.shiftLeft_add, ← BitVec.or_assoc, leValue,
          List.length_cons, Nat.mul_succ]

/-- LeRead's recursion and its loop form the same value (41_cursor.md R87). -/
theorem leValue_map_range (f : Nat → Byte) (k : Nat) :
    leValue ((List.range k).map f) = leWord f k := by
  induction k with
  | zero => rfl
  | succ k ih =>
    rw [leWord, List.range_succ, List.map_append, List.map_singleton, leValue_concat, ih,
      List.length_map, List.length_range, List.foldl_concat, leWord]

/-- LeWrite's recursion and its loop form the same bytes (41_cursor.md R88). -/
theorem leBytes_eq_leList (k : Nat) (v : Word) : leBytes k v = leList k v := by
  apply List.ext_getElem?
  intro i
  by_cases hi : i < k
  · rw [leBytes_getElem? hi, leList, List.getElem?_map, List.getElem?_range hi, Option.map_some]
  · have hi : k ≤ i := Nat.le_of_not_lt hi
    rw [List.getElem?_eq_none (by simpa using hi),
      List.getElem?_eq_none (by simpa [leList] using hi)]

/-- LeRead loads the bytes in the order its loop takes them (41_cursor.md R87). -/
theorem State.loadFrame_eq_map_range {a k : Nat} {f : Nat → Byte}
    (h : ∀ j, j < k → s.fbuf.read (a + j) = some (f j)) :
    s.loadFrame a k = .ok ((List.range k).map f) := by
  refine State.loadFrame_eq_ok.mpr ⟨by simp, fun j hj => ?_⟩
  rw [h j hj, List.getElem?_map, List.getElem?_range hj, Option.map_some]

/-! ### CUR_READ, in R91's priority order -/

theorem exec_curRead_of_error {e : Raised} (hs : s.faultCause = .none)
    (h : curReadBody n s = .error e) : exec (.curRead n) s = .next (raised s e.cause e.info) :=
  exec_command_of_error (i := .curRead n) rfl hs h

theorem exec_curRead_of_bad_width (hs : s.faultCause = .none) (hn : ¬ (1 ≤ n.toNat ∧ n.toNat ≤ 4)) :
    exec (.curRead n) s = .next (raised s .cursorWidth (curReadWord n)) :=
  exec_curRead_of_error hs (curReadBody_eq_error.mpr (.inl ⟨hn, rfl⟩))

theorem exec_curRead_of_flen_invalid (hs : s.faultCause = .none) (hn : 1 ≤ n.toNat ∧ n.toNat ≤ 4)
    (hl : s.flen = none) : exec (.curRead n) s = .next (raised s .uninitRead 0x0000001C#32) :=
  exec_curRead_of_error hs (curReadBody_eq_error.mpr (.inr ⟨hn, .inl ⟨hl, rfl⟩⟩))

variable {l : Extent}

theorem exec_curRead_of_out_of_bounds (hs : s.faultCause = .none) (hn : 1 ≤ n.toNat ∧ n.toNat ≤ 4)
    (hl : s.flen = some l) (hb : cursorBound l < s.off.toNat + n.toNat) :
    exec (.curRead n) s = .next (raised s .cursorBounds (curReadWord n)) :=
  exec_curRead_of_error hs
    (curReadBody_eq_error.mpr (.inr ⟨hn, .inr ⟨l, hl, .inl ⟨Nat.not_le.mpr hb, rfl⟩⟩⟩))

theorem exec_curRead_of_firstInvalid (hs : s.faultCause = .none) (hn : 1 ≤ n.toNat ∧ n.toNat ≤ 4)
    (hl : s.flen = some l) (hb : s.off.toNat + n.toNat ≤ cursorBound l) {x : Nat}
    (hx : firstInvalid s.fbuf s.off.toNat (s.off.toNat + n.toNat) x) :
    exec (.curRead n) s = .next (raised s .uninitRead (BitVec.ofNat 32 (0x10000 + x))) := by
  obtain ⟨hlo, hhi, hnone, hbelow⟩ := hx
  have hload := State.loadFrame_of_invalid hlo hhi hnone hbelow
  exact exec_curRead_of_error hs
    (curReadBody_eq_error.mpr (.inr ⟨hn, .inr ⟨l, hl, .inr ⟨hb, hload⟩⟩⟩))

theorem exec_curRead_of_valid (hs : s.faultCause = .none) (hn : 1 ≤ n.toNat ∧ n.toNat ≤ 4)
    (hl : s.flen = some l) (hb : s.off.toNat + n.toNat ≤ cursorBound l) {f : Nat → Byte}
    (hf : ∀ j, j < n.toNat → s.fbuf.read (s.off.toNat + j) = some (f j)) :
    exec (.curRead n) s =
      .next { s with data := some (leWord f n.toNat), off := advanced s.off n.toNat } := by
  rw [← leValue_map_range]
  exact exec_command_of_ok (i := .curRead n) rfl hs
    (curReadBody_eq_ok.mpr ⟨hn, l, hl, hb, _, State.loadFrame_eq_map_range hf, rfl⟩)

/-! ### CUR_WRITE, in R92's priority order -/

theorem exec_curWrite_of_error {e : Raised} (hs : s.faultCause = .none)
    (h : curWriteBody n s = .error e) : exec (.curWrite n) s = .next (raised s e.cause e.info) :=
  exec_command_of_error (i := .curWrite n) rfl hs h

theorem exec_curWrite_of_bad_width (hs : s.faultCause = .none)
    (hn : ¬ (1 ≤ n.toNat ∧ n.toNat ≤ 4)) :
    exec (.curWrite n) s = .next (raised s .cursorWidth (curWriteWord n)) :=
  exec_curWrite_of_error hs (curWriteBody_eq_error.mpr (.inl ⟨hn, rfl⟩))

theorem exec_curWrite_of_data_invalid (hs : s.faultCause = .none) (hn : 1 ≤ n.toNat ∧ n.toNat ≤ 4)
    (hd : s.data = none) : exec (.curWrite n) s = .next (raised s .uninitRead 0x00000024#32) :=
  exec_curWrite_of_error hs (curWriteBody_eq_error.mpr (.inr ⟨hn, .inl ⟨hd, rfl⟩⟩))

theorem exec_curWrite_of_flen_invalid (hs : s.faultCause = .none) (hn : 1 ≤ n.toNat ∧ n.toNat ≤ 4)
    (hd : s.data ≠ none) (hl : s.flen = none) :
    exec (.curWrite n) s = .next (raised s .uninitRead 0x0000001C#32) :=
  exec_curWrite_of_error hs (curWriteBody_eq_error.mpr
    (.inr ⟨hn, .inr ⟨Option.isSome_iff_ne_none.mpr hd, .inl ⟨hl, rfl⟩⟩⟩))

variable {v : Word}

theorem exec_curWrite_of_out_of_bounds (hs : s.faultCause = .none)
    (hn : 1 ≤ n.toNat ∧ n.toNat ≤ 4) (hd : s.data = some v) (hl : s.flen = some l)
    (hb : cursorBound l < s.off.toNat + n.toNat) :
    exec (.curWrite n) s = .next (raised s .cursorBounds (curWriteWord n)) :=
  exec_curWrite_of_error hs (curWriteBody_eq_error.mpr
    (.inr ⟨hn, .inr ⟨Option.isSome_of_eq_some hd, .inr ⟨l, hl, Nat.not_le.mpr hb, rfl⟩⟩⟩))

theorem exec_curWrite_of_in_bounds (hs : s.faultCause = .none) (hn : 1 ≤ n.toNat ∧ n.toNat ≤ 4)
    (hd : s.data = some v) (hl : s.flen = some l)
    (hb : s.off.toNat + n.toNat ≤ cursorBound l) :
    exec (.curWrite n) s = .next { s.storeFrame s.off.toNat (leList n.toNat v) with
      off := advanced s.off n.toNat } := by
  rw [← leBytes_eq_leList]
  exact exec_command_of_ok (i := .curWrite n) rfl hs
    (curWriteBody_eq_ok.mpr ⟨hn, v, l, hd, hl, hb, rfl⟩)

end Sys2Proof.Machine

namespace Sys2Proof.Claims

open Sys2Proof.Machine

/-- A cursor command's word whose ARG has a bit above the count is no command (30_encoding.md R67,
R70). -/
theorem illegalWord_of_arg_above_count {s : State} {w : Word} (hs : s.faultCause = .none)
    (hop : w.extractLsb' 24 8 ∈ [0x10#8, 0x11#8]) (harg : w.extractLsb' 3 21 ≠ 0#21) :
    illegalWord s w := by
  obtain ⟨_, _, _, hcursor⟩ := reservedCommandWordsAreIllegal w s hs
  exact hcursor hop harg

/-- Settles O21: each clause is one check of CUR_READ's body in order, and the value is LeRead's. -/
theorem curReadReadsLittleEndian : Obligations.CurReadReadsLittleEndian := by
  intro s n hs
  rw [← curReadWord_eq_or]
  refine ⟨runsAs_of_encodeInstr hs rfl, exec_curRead_of_bad_width hs,
    fun hn => ⟨exec_curRead_of_flen_invalid hs hn, fun l hl => ⟨?outOfBounds, fun hb => ?inBounds⟩⟩,
    fun _ hop => illegalWord_of_arg_above_count hs (by simp [hop])⟩
  case outOfBounds => exact exec_curRead_of_out_of_bounds hs hn hl
  case inBounds =>
    exact ⟨fun _ => exec_curRead_of_firstInvalid hs hn hl hb,
      fun _ => exec_curRead_of_valid hs hn hl hb⟩

/-- Settles O22: each clause is one check of CUR_WRITE's body in order, and the bytes are
LeWrite's. -/
theorem curWriteStoresLittleEndian : Obligations.CurWriteStoresLittleEndian := by
  intro s n hs
  rw [← curWriteWord_eq_or]
  refine ⟨runsAs_of_encodeInstr hs rfl, exec_curWrite_of_bad_width hs,
    fun hn => ⟨exec_curWrite_of_data_invalid hs hn, exec_curWrite_of_flen_invalid hs hn,
      fun v l hd hl => ⟨?outOfBounds, fun hb => ?inBounds⟩⟩,
    fun _ hop => illegalWord_of_arg_above_count hs (by simp [hop])⟩
  case outOfBounds => exact exec_curWrite_of_out_of_bounds hs hn hd hl
  case inBounds =>
    exact ⟨_, Memory.storedAt_store _ _ _, exec_curWrite_of_in_bounds hs hn hd hl hb⟩

end Sys2Proof.Claims
end

section
/-! PROOFS. The two bytes of a 16-bit field, the frame as header, payload and CRC, ENCODE and DECODE
of a block that is not faulted, and the statements about them (42_codec.md R94 to R110). -/

namespace Sys2Proof.Machine

open Sys2Proof.Claims

variable {s t : State}

/-! ### A 16-bit field as its two bytes, low byte first (42_codec.md R94) -/

theorem half_append_bytes (v : Half) : v.extractLsb' 8 8 ++ v.extractLsb' 0 8 = v := by
  rw [← leValue_pair_setWidth, ← leBytes_two, leValue_leBytes_two]
  simp

theorem half_toNat_eq_bytes (v : Half) :
    v.toNat = (v.extractLsb' 0 8).toNat + 256 * (v.extractLsb' 8 8).toNat := by
  rw [← leValue_pair_toNat, ← leBytes_two, leValue_leBytes_two,
    BitVec.toNat_setWidth_of_le (by omega)]

/-- Two bytes that give a field's value are the field's bytes. -/
theorem bytes_eq_of_toNat_eq_half {x y : Byte} {v : Half} (h : x.toNat + 256 * y.toNat = v.toNat) :
    x = v.extractLsb' 0 8 ∧ y = v.extractLsb' 8 8 := by
  rw [half_toNat_eq_bytes] at h
  have hx := x.isLt
  have hlow := (v.extractLsb' 0 8).isLt
  exact ⟨BitVec.eq_of_toNat_eq (by omega), BitVec.eq_of_toNat_eq (by omega)⟩

theorem lengthField_toNat {n : Nat} (h : n ≤ 65535) : (BitVec.ofNat 16 n).toNat = n := by
  rw [BitVec.toNat_ofNat, Nat.mod_eq_of_lt (by omega)]

theorem flenField_toNat {n : Nat} (h : n ≤ 65542) : (BitVec.ofNat 17 n).toNat = n := by
  rw [BitVec.toNat_ofNat, Nat.mod_eq_of_lt (by omega)]

/-- The length field of a payload that fits it, byte by byte. -/
theorem lengthField_bytes {n : Nat} (h : n ≤ 65535) :
    ((BitVec.ofNat 16 n).extractLsb' 0 8).toNat +
      256 * ((BitVec.ofNat 16 n).extractLsb' 8 8).toNat = n := by
  rw [← half_toNat_eq_bytes, lengthField_toNat h]

/-! ### Known bytes -/

/-- The first of two runs of known bytes is known. -/
theorem bytesAt_of_append {m : Memory} {a : Nat} {h r : List Byte} (hb : bytesAt m a (h ++ r)) :
    bytesAt m a h := by
  intro k hk
  rw [hb k (by rw [List.length_append]; omega), List.getElem?_append_left hk]

/-- Known bytes from one offset agree. -/
theorem bytesAt_unique {m : Memory} {a : Nat} {f g : List Byte} (hf : bytesAt m a f)
    (hg : bytesAt m a g) (hlen : f.length = g.length) : f = g := by
  apply List.ext_getElem?
  intro k
  by_cases hk : k < f.length
  · rw [← hf k hk, hg k (hlen ▸ hk)]
  · rw [List.getElem?_eq_none (by omega), List.getElem?_eq_none (by omega)]

theorem read_ne_none_of_bytesAt {m : Memory} {f : List Byte} (hf : bytesAt m 0 f) {x : Nat}
    (hx : x < f.length) : m.read x ≠ none := by
  have hread := hf x hx
  rw [Nat.zero_add] at hread
  rw [hread, List.getElem?_eq_getElem hx]
  exact Option.some_ne_none _

/-- Part of a run of known bytes loads as that part. -/
theorem State.loadFrame_of_bytesAt {f : List Byte} (hf : bytesAt s.fbuf 0 f) {a n : Nat}
    (h : a + n ≤ f.length) : s.loadFrame a n = .ok ((f.drop a).take n) :=
  State.loadFrame_of_bytes (fun k hk => by rw [← hf k hk, Nat.zero_add]) h

theorem State.loadPayload_of_bytesAt {p : List Byte} {n : Nat} (hlen : p.length = n)
    (hp : bytesAt s.pbuf 0 p) : s.loadPayload 0 n = .ok p :=
  State.loadPayload_eq_ok.mpr ⟨hlen, fun k hk => hp k (hlen ▸ hk)⟩

/-! ### Loads around the first invalid byte -/

section firstInvalid

variable {lo hi x a n : Nat}

/-- Valid bytes below the range leave its first invalid byte the first. -/
theorem firstInvalid_zero {m : Memory} (hx : firstInvalid m lo hi x)
    (hlow : ∀ y, y < lo → m.read y ≠ none) : firstInvalid m 0 hi x := by
  obtain ⟨_, hhi, hnone, hbelow⟩ := hx
  refine ⟨Nat.zero_le x, hhi, hnone, fun y _ hy => ?_⟩
  by_cases h : y < lo
  · exact hlow y h
  · exact hbelow y (Nat.le_of_not_lt h) hy

theorem lt_of_firstInvalid {m : Memory} (hx : firstInvalid m lo hi x) : x < hi := by
  obtain ⟨_, hhi, _, _⟩ := hx
  exact hhi

/-- A load that ends below the first invalid byte answers. -/
theorem State.loadFrame_below_firstInvalid (hx : firstInvalid s.fbuf 0 hi x) (h : a + n ≤ x) :
    ∃ bs, s.loadFrame a n = .ok bs := by
  obtain ⟨_, _, _, hbelow⟩ := hx
  exact State.loadFrame_of_valid fun y _ hy => hbelow y (Nat.zero_le y) (by omega)

/-- A load across the first invalid byte faults there. -/
theorem State.loadFrame_across_firstInvalid (hx : firstInvalid s.fbuf 0 hi x) (h1 : a ≤ x)
    (h2 : x < a + n) : s.loadFrame a n = .error ⟨.uninitRead, BitVec.ofNat 32 (0x10000 + x)⟩ := by
  obtain ⟨_, _, hnone, hbelow⟩ := hx
  exact State.loadFrame_of_invalid h1 h2 hnone fun y _ hy => hbelow y (Nat.zero_le y) hy

theorem State.leReadFrame_below_firstInvalid (hx : firstInvalid s.fbuf 0 hi x) (h : a + n ≤ x) :
    ∃ v, s.leReadFrame a n = .ok v := by
  obtain ⟨bs, hbs⟩ := State.loadFrame_below_firstInvalid hx h
  exact ⟨_, State.leReadFrame_eq_ok.mpr ⟨bs, hbs, rfl⟩⟩

theorem State.leReadFrame_across_firstInvalid (hx : firstInvalid s.fbuf 0 hi x) (h1 : a ≤ x)
    (h2 : x < a + n) :
    s.leReadFrame a n = .error ⟨.uninitRead, BitVec.ofNat 32 (0x10000 + x)⟩ :=
  State.leReadFrame_eq_error.mpr (State.loadFrame_across_firstInvalid hx h1 h2)

end firstInvalid

/-! ### Commands -/

/-- A command that leaves the block not faulted has completed. -/
theorem commandBody_of_exec_clear {i : Instr} (hi : i.isCommand = true) (h : exec i s = .next t)
    (ht : t.faultCause = .none) : commandBody i s = .ok t := by
  rw [exec_command hi] at h
  rcases transact_cases h with ⟨hs, rfl⟩ | ⟨_, hbody⟩ | ⟨_, e, he, rfl⟩
  · exact absurd ht hs
  · exact hbody
  · exact absurd ht (faultsWith_cause (.inr (.inl ⟨hi, he⟩)))

theorem execAll_cons_of_next {i : Instr} (h : exec i s = .next t) (is : List Instr) :
    execAll (i :: is) s = execAll is t := by
  rw [execAll, h]

/-! ### ENCODE, in R97's priority order -/

/-- ENCODE's frame is the well-formed one when LEN is the payload's length (42_codec.md R94). -/
theorem frameBytes_eq_frameOf (id : Half) (cnt : Byte) {n : Half} {p : List Byte}
    (h : p.length = n.toNat) : frameBytes id cnt n p = frameOf id cnt p := by
  have hn : BitVec.ofNat 16 p.length = n := by rw [h, BitVec.ofNat_toNat, BitVec.setWidth_eq]
  rw [frameBytes, headerBytes_eq, leBytes_two, frameOf, hn]

theorem exec_encode_of_error {e : Raised} (hs : s.faultCause = .none) (h : encodeBody s = .error e) :
    exec .encode s = .next (raised s e.cause e.info) :=
  exec_command_of_error (i := .encode) rfl hs h

theorem exec_encode_of_id_invalid (hs : s.faultCause = .none) (hid : s.id = none) :
    exec .encode s = .next (raised s .uninitRead 0x00000010#32) :=
  exec_encode_of_error hs (encodeBody_eq_error.mpr (.inl ⟨hid, rfl⟩))

theorem exec_encode_of_cnt_invalid (hs : s.faultCause = .none) (hid : s.id ≠ none)
    (hcnt : s.cnt = none) : exec .encode s = .next (raised s .uninitRead 0x00000014#32) :=
  exec_encode_of_error hs (encodeBody_eq_error.mpr
    (.inr ⟨Option.isSome_iff_ne_none.mpr hid, .inl ⟨hcnt, rfl⟩⟩))

theorem exec_encode_of_len_invalid (hs : s.faultCause = .none) (hid : s.id ≠ none)
    (hcnt : s.cnt ≠ none) (hlen : s.len = none) :
    exec .encode s = .next (raised s .uninitRead 0x00000018#32) :=
  exec_encode_of_error hs (encodeBody_eq_error.mpr (.inr ⟨Option.isSome_iff_ne_none.mpr hid,
    .inr ⟨Option.isSome_iff_ne_none.mpr hcnt, .inl ⟨hlen, rfl⟩⟩⟩))

section encode

variable {id : Half} {cnt : Byte} {n : Half}

theorem exec_encode_of_firstInvalid (hs : s.faultCause = .none) (hid : s.id = some id)
    (hcnt : s.cnt = some cnt) (hlen : s.len = some n) {x : Nat}
    (hx : firstInvalid s.pbuf 0 n.toNat x) :
    exec .encode s = .next (raised s .uninitRead (BitVec.ofNat 32 (0x30000 + x))) := by
  obtain ⟨hlo, hhi, hnone, hbelow⟩ := hx
  have hload := State.loadPayload_of_invalid (n := n.toNat) hlo (by omega) hnone hbelow
  exact exec_encode_of_error hs (encodeBody_eq_error.mpr (.inr ⟨Option.isSome_of_eq_some hid,
    .inr ⟨Option.isSome_of_eq_some hcnt, .inr ⟨n, hlen, hload⟩⟩⟩))

theorem exec_encode_of_valid (hs : s.faultCause = .none) (hid : s.id = some id)
    (hcnt : s.cnt = some cnt) (hlen : s.len = some n) {p : List Byte} (hp : p.length = n.toNat)
    (hb : bytesAt s.pbuf 0 p) :
    exec .encode s = .next { s.storeFrame 0 (frameOf id cnt p) with
      flen := some (BitVec.ofNat 17 (7 + n.toNat)) } := by
  rw [← frameBytes_eq_frameOf id cnt hp]
  exact exec_command_of_ok (i := .encode) rfl hs
    (encodeBody_eq_ok.mpr ⟨id, cnt, n, p, hid, hcnt, hlen, State.loadPayload_of_bytesAt hp hb, rfl⟩)

/-- An ENCODE that completes: its operands are valid and its frame is stored. -/
theorem encode_completes (h : exec .encode s = .next t) (ht : t.faultCause = .none) :
    ∃ id cnt n p, s.id = some id ∧ s.len = some n ∧
      t = { s.storeFrame 0 (frameOf id cnt p) with
        flen := some (BitVec.ofNat 17 (7 + n.toNat)) } := by
  obtain ⟨id, cnt, n, p, hid, _, hlen, hload, rfl⟩ :=
    encodeBody_eq_ok.mp (commandBody_of_exec_clear (i := .encode) rfl h ht)
  obtain ⟨hp, _⟩ := State.loadPayload_eq_ok.mp hload
  exact ⟨id, cnt, n, p, hid, hlen, by rw [frameBytes_eq_frameOf id cnt hp]; rfl⟩

end encode

/-! ### DECODE, in R98's order -/

theorem exec_decode_of_ok (hs : s.faultCause = .none) (h : decodeBody s = .ok t) :
    exec .decode s = .next t :=
  exec_command_of_ok (i := .decode) rfl hs h

theorem exec_decode_of_error {e : Raised} (hs : s.faultCause = .none) (h : decodeBody s = .error e) :
    exec .decode s = .next (raised s e.cause e.info) :=
  exec_command_of_error (i := .decode) rfl hs h

theorem exec_decode_of_flen_invalid (hs : s.faultCause = .none) (hl : s.flen = none) :
    exec .decode s = .next (raised s .uninitRead 0x0000001C#32) := by
  refine exec_decode_of_error (e := ⟨.uninitRead, 0x0000001C#32⟩) hs ?_
  rw [decodeBody, hl]
  rfl

section decode

variable {l : Extent}

theorem exec_decode_of_short (hs : s.faultCause = .none) (hl : s.flen = some l)
    (h : l.toNat < 7) : exec .decode s = .next { s with result := .tooShort } := by
  refine exec_decode_of_ok hs ?_
  rw [decodeBody_of_flen hl, if_pos h]
  rfl

/-- The first invalid header byte faults whichever of the three header reads meets it. -/
theorem decodeHeader_of_firstInvalid {x : Nat} (hx : firstInvalid s.fbuf 0 5 x) :
    decodeHeader s l = .error ⟨.uninitRead, BitVec.ofNat 32 (0x10000 + x)⟩ := by
  have hhi := lt_of_firstInvalid hx
  refine except_bind_eq_error.mpr ?_
  by_cases h2 : x < 2
  · exact .inl (State.leReadFrame_across_firstInvalid hx (by omega) (by omega))
  obtain ⟨id, hid⟩ := State.leReadFrame_below_firstInvalid (a := 0) (n := 2) hx (by omega)
  refine .inr ⟨id, hid, except_bind_eq_error.mpr ?_⟩
  by_cases h3 : x < 3
  · exact .inl (State.leReadFrame_across_firstInvalid hx (by omega) (by omega))
  obtain ⟨cnt, hcnt⟩ := State.leReadFrame_below_firstInvalid (a := 2) (n := 1) hx (by omega)
  refine .inr ⟨cnt, hcnt, except_bind_eq_error.mpr (.inl ?_)⟩
  exact State.leReadFrame_across_firstInvalid hx (by omega) (by omega)

theorem exec_decode_of_header_firstInvalid (hs : s.faultCause = .none) (hl : s.flen = some l)
    (h7 : 7 ≤ l.toNat) {x : Nat} (hx : firstInvalid s.fbuf 0 5 x) :
    exec .decode s = .next (raised s .uninitRead (BitVec.ofNat 32 (0x10000 + x))) := by
  refine exec_decode_of_error (e := ⟨.uninitRead, BitVec.ofNat 32 (0x10000 + x)⟩) hs ?_
  rw [decodeBody_of_flen hl, if_neg (by omega), decodeHeader_of_firstInvalid hx]

variable {a b c d e : Byte}

/-- DECODE on a valid header of a frame of 7 bytes or more. -/
theorem decodeBody_of_header (hl : s.flen = some l) (h7 : 7 ≤ l.toNat)
    (hh : bytesAt s.fbuf 0 [a, b, c, d, e]) :
    decodeBody s = if d.toNat + 256 * e.toNat ≠ l.toNat - 7 then .ok (s.failing .lenMismatch)
      else decodeChecked s (leValue [a, b]) (leValue [c]) (leValue [d, e]) := by
  rw [decodeBody_of_flen hl, if_neg (by omega),
    decodeHeader_of_bytes fun k hk => by rw [← hh k hk, Nat.zero_add]]

theorem exec_decode_of_length_ne (hs : s.faultCause = .none) (hl : s.flen = some l)
    (h7 : 7 ≤ l.toNat) (hh : bytesAt s.fbuf 0 [a, b, c, d, e])
    (hne : d.toNat + 256 * e.toNat ≠ l.toNat - 7) :
    exec .decode s = .next { s with result := .lenMismatch } := by
  refine exec_decode_of_ok hs ?_
  rw [decodeBody_of_header hl h7 hh, if_pos hne]
  rfl

/-- The first invalid byte faults whichever of the two loads after the header meets it. -/
theorem decodeChecked_of_firstInvalid {id cnt dl : Word} {x : Nat}
    (hx : firstInvalid s.fbuf 0 (7 + dl.toNat) x) :
    decodeChecked s id cnt dl = .error ⟨.uninitRead, BitVec.ofNat 32 (0x10000 + x)⟩ := by
  have hhi := lt_of_firstInvalid hx
  refine except_bind_eq_error.mpr ?_
  by_cases h : x < 5 + dl.toNat
  · exact .inl (State.loadFrame_across_firstInvalid hx (Nat.zero_le x) ((Nat.zero_add _).symm ▸ h))
  obtain ⟨covered, hc⟩ :=
    State.loadFrame_below_firstInvalid (a := 0) (n := 5 + dl.toNat) hx (by omega)
  refine .inr ⟨covered, hc, except_bind_eq_error.mpr (.inl ?_)⟩
  exact State.leReadFrame_across_firstInvalid hx (Nat.le_of_not_lt h)
    (show x < 5 + dl.toNat + 2 by omega)

theorem exec_decode_of_body_firstInvalid (hs : s.faultCause = .none) (hl : s.flen = some l)
    (h7 : 7 ≤ l.toNat) (hh : bytesAt s.fbuf 0 [a, b, c, d, e])
    (hd : d.toNat + 256 * e.toNat = l.toNat - 7) {x : Nat}
    (hx : firstInvalid s.fbuf 5 (7 + (d.toNat + 256 * e.toNat)) x) :
    exec .decode s = .next (raised s .uninitRead (BitVec.ofNat 32 (0x10000 + x))) := by
  have hx0 := firstInvalid_zero hx fun _ hy => read_ne_none_of_bytesAt hh hy
  rw [← leValue_pair_toNat] at hx0
  refine exec_decode_of_error (e := ⟨.uninitRead, BitVec.ofNat 32 (0x10000 + x)⟩) hs ?_
  rw [decodeBody_of_header hl h7 hh, if_neg (not_not.mpr hd), decodeChecked_of_firstInvalid hx0]

variable {p : List Byte} {x y : Byte}

/-- DECODE on a frame of valid bytes whose length field is right: the CRC decides. -/
theorem exec_decode_of_frame (hs : s.faultCause = .none) (hl : s.flen = some l)
    (hlen : l.toNat = p.length + 7) (hd : d.toNat + 256 * e.toNat = p.length)
    (hb : bytesAt s.fbuf 0 ([a, b, c, d, e] ++ p ++ [x, y])) :
    exec .decode s = .next
      (if (crcValue ([a, b, c, d, e] ++ p)).toNat ≠ x.toNat + 256 * y.toNat
        then s.failing .crcMismatch else s.delivering (b ++ a) c (e ++ d) p) := by
  have hdl : (leValue [d, e]).toNat = p.length := (leValue_pair_toNat d e).trans hd
  have hcovered : s.loadFrame 0 (5 + (leValue [d, e]).toNat) = .ok ([a, b, c, d, e] ++ p) := by
    rw [State.loadFrame_of_bytesAt hb (by simp; omega), hdl]
    simp [Nat.add_comm 5]
  have htrailing : s.loadFrame (5 + (leValue [d, e]).toNat) 2 = .ok [x, y] := by
    rw [State.loadFrame_of_bytesAt hb (by simp; omega), hdl]
    simp [Nat.add_comm 5]
  refine exec_decode_of_ok hs ?_
  rw [decodeBody_of_header hl (by omega) (bytesAt_of_append (bytesAt_of_append hb)),
    if_neg (by omega), decodeChecked_of_loads hcovered htrailing, leValue_pair_setWidth,
    leValue_pair_setWidth, leValue_singleton]
  split <;> simp

end decode

/-- A DECODE that completes fails, which writes RESULT alone, or delivers (42_codec.md R99). -/
theorem decode_completes (h : exec .decode s = .next t) (ht : t.faultCause = .none) :
    (∃ k, k ≠ .none ∧ t = s.failing k) ∨ ∃ id cnt n p, t = s.delivering id cnt n p := by
  obtain ⟨_, _, ⟨_, rfl⟩ | ⟨_, hheader⟩⟩ :=
    decodeBody_ok_cases (commandBody_of_exec_clear (i := .decode) rfl h ht)
  · exact .inl ⟨.tooShort, by decide, rfl⟩
  obtain ⟨_, _, _, _, _, _, ⟨_, rfl⟩ | ⟨_, hchecked⟩⟩ := decodeHeader_ok_cases hheader
  · exact .inl ⟨.lenMismatch, by decide, rfl⟩
  obtain ⟨_, _, _, _, ⟨_, rfl⟩ | ⟨_, rfl⟩⟩ := decodeChecked_ok_cases hchecked
  · exact .inl ⟨.crcMismatch, by decide, rfl⟩
  · exact .inr ⟨_, _, _, _, rfl⟩

/-! ### The parts of a frame -/

theorem exists_header_bytes {h : List Byte} (hlen : h.length = 5) :
    ∃ a b c d e, h = [a, b, c, d, e] := by
  match h, hlen with
  | [a, b, c, d, e], _ => exact ⟨a, b, c, d, e, rfl⟩

/-- A frame of seven bytes or more is a header, a payload and a CRC (42_codec.md R94). -/
theorem exists_frame_parts {f : List Byte} {n : Nat} (h : f.length = 7 + n) :
    ∃ a b c d e p x y, f = [a, b, c, d, e] ++ p ++ [x, y] ∧ p.length = n := by
  obtain ⟨a, b, c, d, e, hheader⟩ := exists_header_bytes (h := f.take 5) (by simp; omega)
  obtain ⟨x, y, hcrc⟩ := List.length_eq_two (l := (f.drop 5).drop n) |>.mp (by simp; omega)
  refine ⟨a, b, c, d, e, (f.drop 5).take n, x, y, ?_, by simp; omega⟩
  rw [← hheader, ← hcrc, List.append_assoc, List.take_append_drop, List.take_append_drop]

/-- A frame's bytes in the offsets' order, part by part. -/
theorem frame_parts_at (a b c d e x y : Byte) (p : List Byte) :
    let f := [a, b, c, d, e] ++ p ++ [x, y]
    f.take (5 + p.length) = [a, b, c, d, e] ++ p ∧ (f.drop 5).take p.length = p ∧
      f.getD (5 + p.length) 0 = x ∧ f.getD (6 + p.length) 0 = y := by
  refine ⟨?covered, ?payload, ?low, ?high⟩
  case covered => exact List.take_left' (by simp [Nat.add_comm 5])
  case payload => exact List.take_left' rfl
  case low => simp [Nat.add_comm 5]
  case high => simp [Nat.add_comm 6]

/-- The well-formed frame part by part, its trailing bytes the CRC's (42_codec.md R94, R95). -/
theorem frameOf_parts (id : Half) (cnt : Byte) (p : List Byte) :
    let n : Half := BitVec.ofNat 16 p.length
    let header := [id.extractLsb' 0 8, id.extractLsb' 8 8, cnt, n.extractLsb' 0 8, n.extractLsb' 8 8]
    ∃ x y, frameOf id cnt p = header ++ p ++ [x, y] ∧
      (crcValue (header ++ p)).toNat = x.toNat + 256 * y.toNat :=
  ⟨_, _, rfl, half_toNat_eq_bytes _⟩

/-- DECODE delivers a well-formed frame: its length field and its CRC are right. -/
theorem exec_decode_of_wellFormed {id : Half} {cnt : Byte} {p : List Byte} {l : Extent}
    (hs : s.faultCause = .none) (hl : s.flen = some l) (hlen : l.toNat = p.length + 7)
    (hp : p.length ≤ 65535) (hb : bytesAt s.fbuf 0 (frameOf id cnt p)) :
    exec .decode s = .next (s.delivering id cnt (BitVec.ofNat 16 p.length) p) := by
  obtain ⟨x, y, hframe, hcrc⟩ := frameOf_parts id cnt p
  rw [hframe] at hb
  rw [exec_decode_of_frame hs hl hlen (lengthField_bytes hp) hb, if_neg (not_not.mpr hcrc),
    half_append_bytes, half_append_bytes]

end Sys2Proof.Machine

namespace Sys2Proof.Claims

open Sys2Proof.Machine

/-- Settles O25: each clause is one check of ENCODE's body in order. -/
theorem encodeBuildsTheFrame : Obligations.EncodeBuildsTheFrame := by
  intro s hs
  refine ⟨runsAs_of_encodeInstr hs rfl, exec_encode_of_id_invalid hs, exec_encode_of_cnt_invalid hs,
    exec_encode_of_len_invalid hs, fun id cnt n hid hcnt hlen => ⟨?invalid, ?valid⟩,
    fun _ hop => illegalWord_of_arg_ne_zero hs (by simp [hop])⟩
  case invalid => exact fun x => exec_encode_of_firstInvalid hs hid hcnt hlen
  case valid =>
    exact fun p hp hb =>
      ⟨_, Memory.storedAt_store _ _ _, exec_encode_of_valid hs hid hcnt hlen hp hb⟩

/-- Settles O26: the sum of a 16-bit LEN and 7 fits FLEN's 17 bits. -/
theorem encodeSetsFlenToLenPlusSeven : Obligations.EncodeSetsFlenToLenPlusSeven := by
  intro s t _ h ht
  obtain ⟨id, cnt, n, p, _, hlen, rfl⟩ := encode_completes h ht
  have hn := n.isLt
  exact ⟨n, _, hlen, rfl, by rw [flenField_toNat (by omega), Nat.add_comm]⟩

/-- Settles O27: the frame starts with ID's low byte and its high byte. -/
theorem encodeIdIsLittleEndian : Obligations.EncodeIdIsLittleEndian := by
  intro s t _ h1234 h ht
  obtain ⟨id, cnt, n, p, hid, _, rfl⟩ := encode_completes h ht
  obtain rfl : id = 0x1234#16 := Option.some.inj (hid.symm.trans h1234)
  obtain ⟨hbytes, _⟩ := Memory.storedAt_store s.fbuf 0 (frameOf 0x1234#16 cnt p)
  exact ⟨hbytes 0 (by simp [frameOf]), hbytes 1 (by simp [frameOf])⟩

/-- Settles O28: each clause is one check of DECODE's body in order, on the parts of the frame. -/
theorem decodeParsesTheFrame : Obligations.DecodeParsesTheFrame := by
  intro s hs
  refine ⟨runsAs_of_encodeInstr hs rfl, exec_decode_of_flen_invalid hs,
    fun l hl => ⟨exec_decode_of_short hs hl, fun h7 =>
      ⟨fun x => exec_decode_of_header_firstInvalid hs hl h7, fun h hlen hh => ?header⟩⟩,
    fun _ hop => illegalWord_of_arg_ne_zero hs (by simp [hop])⟩
  obtain ⟨a, b, c, d, e, rfl⟩ := exists_header_bytes hlen
  refine ⟨exec_decode_of_length_ne hs hl h7 hh,
    fun (hd : d.toNat + 256 * e.toNat = l.toNat - 7) =>
      ⟨fun x => exec_decode_of_body_firstInvalid hs hl h7 hh hd, fun f hf hb => ?frame⟩⟩
  obtain ⟨a', b', c', d', e', p, x, y, rfl, hp⟩ := exists_frame_parts hf
  obtain ⟨rfl, rfl, rfl, rfl, rfl⟩ : a = a' ∧ b = b' ∧ c = c' ∧ d = d' ∧ e = e' := by
    simpa using bytesAt_unique hh (bytesAt_of_append (bytesAt_of_append hb)) rfl
  have hdeclared : d.toNat + 256 * e.toNat = p.length := hp.symm
  have hnext := exec_decode_of_frame hs hl (by omega) hdeclared hb
  obtain ⟨hcovered, hpayload, hlow, hhigh⟩ := frame_parts_at a b c d e x y p
  rw [← hp, hcovered, hpayload, hlow, hhigh]
  refine ⟨fun hne => ?mismatch, fun heq => ⟨_, Memory.storedAt_store _ _ _, ?delivered⟩⟩
  case mismatch => exact hnext.trans (by rw [if_pos hne]; rfl)
  case delivered => exact hnext.trans (by rw [if_neg (not_not.mpr heq)]; rfl)

/-- Settles O29: a DECODE that completes fails, which writes RESULT alone, or delivers. -/
theorem failedDecodeWritesOnlyResult : Obligations.FailedDecodeWritesOnlyResult := by
  intro s t _ h ht
  obtain ⟨k, hk, rfl⟩ | ⟨_, _, _, _, rfl⟩ := decode_completes h ht
  · exact ⟨hk, fun _ => rfl⟩
  · exact ⟨by simp, fun hok => absurd rfl hok⟩

/-- Settles O31: no declared length is as long as a FLEN of 65543 or more asks. -/
theorem oversizedFlenIsALengthMismatch : Obligations.OversizedFlenIsALengthMismatch := by
  intro s l hs hl hbig hvalid
  obtain ⟨h, hload⟩ := State.loadFrame_of_valid (s := s) (a := 0) (n := 5)
    fun x _ hx => hvalid x (by omega)
  obtain ⟨hlen, hread⟩ := State.loadFrame_eq_ok.mp hload
  obtain ⟨a, b, c, d, e, rfl⟩ := exists_header_bytes hlen
  exact exec_decode_of_length_ne hs hl (by omega) hread (by omega)

/-- Settles O32: DECODE meets the well-formed frame that ENCODE stored. -/
theorem decodeOfEncodedFrameDelivers : Obligations.DecodeOfEncodedFrameDelivers := by
  intro s id cnt p hs hp hid hcnt hlen hb
  have hn := lengthField_toNat hp
  have hencode := exec_encode_of_valid hs hid hcnt hlen hn.symm hb
  have hflen : (BitVec.ofNat 17 (7 + (BitVec.ofNat 16 p.length).toNat)).toNat = p.length + 7 := by
    rw [hn, flenField_toNat (by omega), Nat.add_comm]
  obtain ⟨hstored, _⟩ := Memory.storedAt_store s.fbuf 0 (frameOf id cnt p)
  have hdecode := exec_decode_of_wellFormed
    (s := { s.storeFrame 0 (frameOf id cnt p) with
      flen := some (BitVec.ofNat 17 (7 + (BitVec.ofNat 16 p.length).toNat)) })
    hs rfl hflen hp hstored
  obtain ⟨hdelivered, _⟩ := Memory.storedAt_store s.pbuf 0 p
  have hrun := (execAll_cons_of_next hencode [.decode]).trans (execAll_cons_of_next hdecode [])
  exact ⟨_, hrun, hs, rfl, rfl, rfl, rfl, hdelivered⟩

/-- Settles O34: only the frame's own two bytes give its payload's length. -/
theorem changedLengthFieldIsALengthMismatch : Obligations.ChangedLengthFieldIsALengthMismatch := by
  intro s id cnt p x y hs hp hchanged hl hb
  have hflen := flenField_toNat (n := p.length + 7) (by omega)
  have hheader : bytesAt s.fbuf 0 [id.extractLsb' 0 8, id.extractLsb' 8 8, cnt, x, y] :=
    bytesAt_of_append hb
  refine exec_decode_of_length_ne hs hl (by omega) hheader fun heq => ?_
  have hvalue : x.toNat + 256 * y.toNat = (BitVec.ofNat 16 p.length).toNat := by
    rw [heq, hflen, lengthField_toNat hp, Nat.add_sub_cancel]
  obtain ⟨rfl, rfl⟩ := bytes_eq_of_toNat_eq_half hvalue
  rcases hchanged with h | h
  · exact h rfl
  · exact h rfl

/-- Settles O35: the header declares the whole payload, which a cut frame is too short for. -/
theorem truncatedFrameIsRejected : Obligations.TruncatedFrameIsRejected := by
  intro s id cnt p k hs hp hk hb hl
  have hflen := flenField_toNat (n := k) (by omega)
  by_cases h7 : k < 7
  · rw [if_pos h7]
    exact exec_decode_of_short hs hl (by omega)
  · rw [if_neg h7]
    obtain ⟨_, _, hframe, _⟩ := frameOf_parts id cnt p
    rw [hframe] at hb
    have hdeclared := lengthField_bytes hp
    exact exec_decode_of_length_ne hs hl (by omega) (bytesAt_of_append (bytesAt_of_append hb))
      (by omega)

end Sys2Proof.Claims
end

section
/-! PROOFS. What an instruction does to the fault record, which faults each cause stands for, what a
faulted block answers, and the statements about them (60_exceptions.md R112 to R116). -/

namespace Sys2Proof.Machine

open Sys2Proof.Claims

variable {s t : State}

/-! ### The fault record of an instruction -/

/-- A command that completes leaves FAULTINFO as it is. -/
theorem commandBody_ok_faultInfo {i : Instr} (hi : i.isCommand = true)
    (h : commandBody i s = .ok t) : t.faultInfo = s.faultInfo := by
  rcases commandBody_ok_cases hi h with ⟨_, rfl⟩ | ⟨_, _, _, rfl⟩ | ⟨_, _, rfl⟩ |
    ⟨_, _, _, _, _, _, rfl⟩ | ⟨_, _, _, _, _, _, _, rfl⟩ | ⟨_, _, _, _, _, _, _, rfl⟩ |
    ⟨_, _, _, _, _, rfl⟩ | ⟨_, _, _, _, _, _, _, rfl⟩ <;> rfl

/-- A write that completes leaves FAULTINFO as it is. -/
theorem writeBody_ok_faultInfo {size : AccessSize} {addr : Addr} {w : Word}
    (h : writeBody size addr w s = .ok t) : t.faultInfo = s.faultInfo := by
  rcases writeBody_ok_cases h with ⟨_, _, i, hi, _, h⟩ | ⟨_, _, rfl⟩ | ⟨_, _, rfl⟩ | ⟨_, _, rfl⟩ |
    ⟨_, _, rfl⟩ | ⟨_, _, rfl⟩ | ⟨_, _, rfl⟩ | ⟨_, _, _, _, rfl⟩ | ⟨_, _, _, _, rfl⟩
  · exact commandBody_ok_faultInfo hi h
  all_goals rfl

/-- An instruction leaves the fault record as it is, or it records the first fault and does nothing
else (60_exceptions.md R115). -/
theorem exec_fault_record_cases {i : Instr} (h : exec i s = .next t) :
    (t.faultCause = s.faultCause ∧ t.faultInfo = s.faultInfo) ∨
    (s.faultCause = .none ∧ ∃ e, faultsWith i s e ∧ t = raised s e.cause e.info) := by
  rcases exec_cases h with ⟨_, _, _, _, rfl⟩ | ⟨_, rfl⟩ | ⟨hs, e, he, rfl⟩ | ⟨_, hi, hbody⟩ |
    ⟨_, _, _, _, _, hbody⟩
  · exact .inl ⟨rfl, rfl⟩
  · exact .inl ⟨rfl, rfl⟩
  · exact .inr ⟨hs, e, he, rfl⟩
  · exact .inl ⟨commandBody_ok_faultCause hi hbody, commandBody_ok_faultInfo hi hbody⟩
  · exact .inl ⟨writeBody_ok_faultCause hbody, writeBody_ok_faultInfo hbody⟩

/-- Once the block is faulted no instruction changes the fault record (60_exceptions.md R116). -/
theorem exec_keeps_fault_record {i : Instr} (hs : s.faultCause ≠ .none) (h : exec i s = .next t) :
    t.faultCause = s.faultCause ∧ t.faultInfo = s.faultInfo := by
  rcases exec_fault_record_cases h with hkeep | ⟨hclear, _⟩
  · exact hkeep
  · exact absurd hclear hs

/-- Only RESET leaves the faulted state (60_exceptions.md R120). -/
theorem step_keeps_fault_record (hs : s.faultCause ≠ .none) (h : step s = .next t)
    (hreset : ∀ rest, s.host ≠ .reset :: rest) :
    t.faultCause = s.faultCause ∧ t.faultInfo = s.faultInfo := by
  rcases step_cases h with ⟨_, rfl⟩ | ⟨rest, hhost, _⟩ | ⟨_, rest, _, _, _, hexec⟩
  · exact ⟨rfl, rfl⟩
  · exact absurd hhost (hreset rest)
  · exact exec_keeps_fault_record (s := { s with host := rest }) hs hexec

/-! ### A BUS_RD of a faulted block -/

/-- Only a 4-byte read of STATUS, FAULT or FAULTINFO returns a register while the block is faulted
(60_exceptions.md R116). -/
theorem faultedReadValue_elsewhere {size : AccessSize} {addr : Addr}
    (h : ¬ (size = .word ∧ addr ∈ [0x00004#20, 0x00008#20, 0x0000C#20])) :
    faultedReadValue size addr s = 0#32 := by
  have hne : ∀ r, regAddr r ∈ [0x00004#20, 0x00008#20, 0x0000C#20] →
      place size addr ≠ some (.register r) := by
    rintro r hr hp
    obtain ⟨hsize, rfl⟩ := place_eq_register.mp hp
    exact h ⟨hsize, hr⟩
  unfold faultedReadValue
  split
  next hp => exact absurd hp (hne .status (by decide))
  next hp => exact absurd hp (hne .fault (by decide))
  next hp => exact absurd hp (hne .faultInfo (by decide))
  next => rfl

/-! ### What each cause records -/

/-- When the instruction `i` may fault with a cause in the state `s`, and the information word it then
records (60_exceptions.md R113, R114). -/
def causeRule (i : Instr) (s : State) (info : Word) : FaultCause → Prop
  | .none => False
  | .busError => ∃ size addr,
    (i = .busRd size addr ∧ busErrorCondition false size addr ∨
      ∃ w, i = .busWr size addr w ∧ busErrorCondition true size addr) ∧
    info = addrInfo addr
  | .fieldRange => ∃ addr w, i = .busWr .word addr w ∧
    ((addr = 0x10#20 ∧ 2 ^ 16 ≤ w.toNat) ∨ (addr = 0x14#20 ∧ 2 ^ 8 ≤ w.toNat) ∨
      (addr = 0x18#20 ∧ 2 ^ 16 ≤ w.toNat) ∨ (addr = 0x1C#20 ∧ 2 ^ 17 ≤ w.toNat) ∨
      (addr = 0x20#20 ∧ 2 ^ 17 ≤ w.toNat)) ∧
    info = addrInfo addr
  | .illegalCmd => ∃ w, i = .busWr .word 0x00000#20 w ∧ (∀ c, encodeInstr c ≠ .command w) ∧ info = w
  | .crcReuse => s.crcState = .final ∧
    ∃ c w, carries i c w ∧ (c = .crcFinal ∨ ∃ b, c = .crcAdd b) ∧ info = w
  | .cursorWidth => ∃ c w n, carries i c w ∧ (c = .curRead n ∨ c = .curWrite n) ∧
    n.toNat ∉ [1, 2, 3, 4] ∧ info = w
  | .cursorBounds => ∃ c w n l, carries i c w ∧ (c = .curRead n ∨ c = .curWrite n) ∧
    s.flen = some l ∧ cursorBound l < s.off.toNat + n.toNat ∧ info = w
  | .uninitRead =>
    ((∃ size addr, i = .busRd size addr) ∨
      ∃ c w, carries i c w ∧ (c = .encode ∨ c = .decode ∨ ∃ n, c = .curRead n ∨ c = .curWrite n)) ∧
    s.invalidAt info

/-- A command's faults keep the rule, whichever instruction carries the command. -/
theorem causeRule_of_command {i c : Instr} {w : Word} {e : Raised} (hcarries : carries i c w)
    (h : commandBody c s = .error e) : causeRule i s e.info e.cause := by
  have hword : ∀ {info}, encodeInstr c = .command info → info = w := fun hinfo => by
    injection hinfo.symm.trans hcarries.1
  rcases commandBody_error_cases h with ⟨hcause, hfinal, hc, hinfo⟩ | ⟨hcause, hinfo, n, hc, hn⟩ |
    ⟨hcause, hinfo, n, l, hc, hl, hbound⟩ | ⟨hcause, hinvalid, hc⟩ <;> rw [hcause]
  · exact ⟨hfinal, c, w, hcarries, hc, hword hinfo⟩
  · have hmem : n.toNat ∉ [1, 2, 3, 4] := by
      simp only [List.mem_cons, List.not_mem_nil, or_false]
      omega
    exact ⟨c, w, n, hcarries, hc, hmem, hword hinfo⟩
  · exact ⟨c, w, n, l, hcarries, hc, hl, hbound, hword hinfo⟩
  · exact ⟨.inr ⟨c, w, hcarries, hc⟩, hinvalid⟩

theorem causeRule_of_busRd {size : AccessSize} {addr : Addr} {e : Raised}
    (h : busReadValue size addr s = .error e) : causeRule (.busRd size addr) s e.info e.cause := by
  rcases busReadValue_error_cases h with ⟨rfl, hplace⟩ | ⟨hcause, hinvalid, _⟩
  · exact ⟨size, addr, .inl ⟨rfl, busErrorCondition_read.mpr hplace⟩, rfl⟩
  · rw [hcause]
    exact ⟨.inl ⟨size, addr, rfl⟩, hinvalid⟩

theorem causeRule_of_busWr {size : AccessSize} {addr : Addr} {w : Word} {e : Raised}
    (h : writeBody size addr w s = .error e) :
    causeRule (.busWr size addr w) s e.info e.cause := by
  rcases writeBody_error_cases h with ⟨rfl, hplace⟩ | ⟨rfl, rfl, hrange⟩ |
    ⟨rfl, rfl, rfl, _, hillegal⟩ | ⟨rfl, rfl, c, _, hdecode, hbody⟩
  · exact ⟨size, addr, .inr ⟨w, rfl, busErrorCondition_write.mpr hplace⟩, rfl⟩
  · exact ⟨addr, w, rfl, hrange, rfl⟩
  · refine ⟨w, rfl, fun c hc => ?_, rfl⟩
    cases hillegal.symm.trans (decodeCmd_of_encodeInstr hc)
  · exact causeRule_of_command ⟨encodeInstr_of_decodeCmd hdecode, .inr rfl⟩ hbody

theorem exists_word_of_isCommand {i : Instr} (hi : i.isCommand = true) :
    ∃ w, encodeInstr i = .command w := by
  cases i
  case busRd => cases hi
  case busWr => cases hi
  all_goals exact ⟨_, rfl⟩

/-- Every fault keeps the rule of its cause. -/
theorem causeRule_of_faultsWith {i : Instr} {e : Raised} (h : faultsWith i s e) :
    causeRule i s e.info e.cause := by
  rcases h with ⟨_, _, rfl, hread⟩ | ⟨hi, hbody⟩ | ⟨_, _, _, rfl, hwrite⟩
  · exact causeRule_of_busRd hread
  · obtain ⟨w, hw⟩ := exists_word_of_isCommand hi
    exact causeRule_of_command ⟨hw, .inl rfl⟩ hbody
  · exact causeRule_of_busWr hwrite

/-- A block that was not faulted and has no fault after an instruction keeps its FAULTINFO, and one
that has a fault keeps the rule of its cause. -/
theorem exec_causeRule {i : Instr} (hs : s.faultCause = .none) (h : exec i s = .next t) :
    (t.faultCause = .none → t.faultInfo = s.faultInfo) ∧
    ∀ c, c ≠ .none → t.faultCause = c → causeRule i s t.faultInfo c := by
  rcases exec_fault_record_cases h with ⟨hcause, hinfo⟩ | ⟨_, e, he, rfl⟩
  · refine ⟨fun _ => hinfo, fun c hc ht => absurd ?_ hc⟩
    rw [← ht, hcause, hs]
  · refine ⟨fun hnone => absurd hnone (faultsWith_cause he), ?_⟩
    rintro _ _ rfl
    exact causeRule_of_faultsWith he

theorem FaultCause.code_toNat (c : FaultCause) : c.code.toNat = causeNumber c ∧ c.code.toNat ≤ 7 := by
  cases c <;> decide

end Sys2Proof.Machine

namespace Sys2Proof.Claims

open Sys2Proof.Machine

/-- Settles O43: a faulted block answers its three status reads and no step but RESET changes its
fault record. -/
theorem faultedBlockAnswersOnlyItsStatus : Obligations.FaultedBlockAnswersOnlyItsStatus := by
  refine ⟨fun s hs => ⟨?status, ?fault, ?faultInfo, ?elsewhere,
    execBusWr_of_faulted hs, fun _ => step_keeps_fault_record hs⟩, ?run⟩
  case status => exact exec_busRd_regAddr_faulted_or_not (r := .status) rfl rfl
  case fault =>
    rw [← State.faultWord_eq_ofNat]
    exact exec_busRd_regAddr_faulted_or_not (r := .fault) rfl rfl
  case faultInfo => exact exec_busRd_regAddr_faulted_or_not (r := .faultInfo) rfl rfl
  case elsewhere =>
    intro size addr h
    show execBusRd size addr s = _
    rw [execBusRd_of_faulted hs, faultedReadValue_elsewhere h, State.returning, got]
  case run =>
    intro actions start t hrun ht
    exact ⟨t, hrun, State.isFaulted_eq_true.mpr ht⟩

/-- Settles O44: an instruction that changes the fault record changes nothing else, and does so only
in a block that is not faulted. -/
theorem faultsArePrecise : Obligations.FaultsArePrecise := by
  refine fun i s t h => ⟨fun hs ht => ?_, fun hs => exec_keeps_fault_record hs h⟩
  rcases exec_fault_record_cases h with ⟨hcause, _⟩ | ⟨_, e, _, rfl⟩
  · exact absurd (hcause.trans hs) ht
  · rfl

/-- Settles O45: each clause is the rule of one cause. -/
theorem faultCausesAndInformation : Obligations.FaultCausesAndInformation := by
  refine ⟨FaultCause.code_toNat, fun i s t hs h => ?_⟩
  obtain ⟨hclear, hrule⟩ := exec_causeRule hs h
  exact ⟨hclear, hrule .busError (by decide), hrule .fieldRange (by decide),
    hrule .illegalCmd (by decide), hrule .crcReuse (by decide), hrule .cursorWidth (by decide),
    hrule .cursorBounds (by decide), hrule .uninitRead (by decide)⟩

/-- Settles O46: an instruction either keeps the fault record or changes nothing but it. -/
theorem decodeFailuresAndFaultsNeverMix : Obligations.DecodeFailuresAndFaultsNeverMix := by
  intro i s t h
  rcases exec_fault_record_cases h with hkeep | ⟨_, e, _, rfl⟩
  · exact ⟨fun _ => hkeep, fun hcause => absurd hkeep.1 hcause⟩
  · exact ⟨fun hresult => absurd rfl hresult, fun _ => rfl⟩

end Sys2Proof.Claims
end

section
/-! PROOFS. The step of RESET, STATUS after it, and the statement about the values it leaves
(70_reset_and_hazards.md R128). -/

namespace Sys2Proof.Machine

open Sys2Proof.Claims

variable {s : State}

@[simp] theorem Memory.read_nil (a : Nat) : Memory.read [] a = none := rfl

/-- STATUS is computed from three fields, each of which RESET sets to its zero code. -/
@[simp] theorem State.hostReset_statusWord : s.hostReset.statusWord = 0#32 := by
  simp [State.statusWord_eq_ofNat, resultNumber]

theorem step_of_host_reset {rest : List HostAction} (h : s.host = .reset :: rest) :
    step s = .next (State.hostReset { s with host := rest }) := by
  rw [step, nextAction, h]

end Sys2Proof.Machine

namespace Sys2Proof.Claims

open Sys2Proof.Machine

/-- Settles O1: the step is RESET itself, each stated field is a `State.hostReset_` rule, and CMD
reads 0 in every state. -/
theorem resetLeavesTheStatedValues : Obligations.ResetLeavesTheStatedValues := by
  intro s rest h
  refine ⟨_, step_of_host_reset h, ?_⟩
  simp [exec_busRd_cmd]

end Sys2Proof.Claims
end

section
/-! PROOFS. What an instruction can do, as two tables (the effect of a command, and of a write that is
not to CMD), and what every step keeps (10_state.md R23, R33 to R35, 40_crc.md R85, R86, 42_codec.md
R98). -/

namespace Sys2Proof.Machine

open Sys2Proof.Claims

variable {s t : State}

/-! ### The effects of an instruction -/

/-- What a command that completes writes (40_crc.md R83 to R85, 41_cursor.md R91, R92, 42_codec.md
R97, R98). -/
inductive CommandEffect (s : State) : Instr → State → Prop
  | crcInit : CommandEffect s .crcInit { s with crcReg := Config.seed, crcState := .accum }
  | crcAdd (b : Byte) (hopen : s.crcState ≠ .final) :
    CommandEffect s (.crcAdd b) { s with crcReg := crcStep s.crcReg b }
  | crcFinal : CommandEffect s .crcFinal
      { s with crcVal := some (crcFinalize s.crcReg), crcState := .final }
  | curRead (n : BitVec 3) (v : Word) {l : Extent} (hbound : s.off.toNat + n.toNat ≤ cursorBound l) :
    CommandEffect s (.curRead n) { s with data := some v, off := advanced s.off n.toNat }
  | curWrite (n : BitVec 3) (v : Word) {l : Extent}
    (hbound : s.off.toNat + n.toNat ≤ cursorBound l) :
    CommandEffect s (.curWrite n)
      { s.storeFrame s.off.toNat (leBytes n.toNat v) with off := advanced s.off n.toNat }
  | encode (id : Half) (cnt : Byte) (n : Half) (p : List Byte) (hlen : s.len = some n)
    (hp : p.length = n.toNat) :
    CommandEffect s .encode { s.storeFrame 0 (frameBytes id cnt n p) with
      flen := some (BitVec.ofNat 17 (Config.overhead + n.toNat)) }
  | failing {k : DecodeResult} (hflen : s.flen.isSome = true) (hnone : k ≠ .none) (hok : k ≠ .ok) :
    CommandEffect s .decode (s.failing k)
  | delivering (id : Half) (cnt : Byte) (n : Half) (p : List Byte) (hflen : s.flen.isSome = true)
    (hp : p.length = n.toNat) : CommandEffect s .decode (s.delivering id cnt n p)

/-- What a write that is not to CMD and completes stores: one register or one buffer byte
(20_memory.md R56). -/
inductive PlainWriteEffect (s : State) : Addr → State → Prop
  | id (v : Half) : PlainWriteEffect s 0x00010#20 { s with id := some v }
  | cnt (v : Byte) : PlainWriteEffect s 0x00014#20 { s with cnt := some v }
  | len (v : Half) : PlainWriteEffect s 0x00018#20 { s with len := some v }
  | flen (v : Extent) : PlainWriteEffect s 0x0001C#20 { s with flen := some v }
  | off (v : Extent) : PlainWriteEffect s 0x00020#20 { s with off := v }
  | data (v : Word) : PlainWriteEffect s 0x00024#20 { s with data := some v }
  | frame {addr : Addr} {a : Nat} (b : Byte) (ha : a < 65542) (haddr : addr.toNat = 0x10000 + a) :
    PlainWriteEffect s addr (s.storeFrame a [b])
  | payload {addr : Addr} {a : Nat} (b : Byte) (ha : a < 65535)
    (haddr : addr.toNat = 0x30000 + a) : PlainWriteEffect s addr (s.storePayload a [b])

theorem commandEffect_of_commandBody {i : Instr} (hi : i.isCommand = true)
    (h : commandBody i s = .ok t) : CommandEffect s i t := by
  rcases commandBody_ok_cases hi h with ⟨rfl, rfl⟩ | ⟨b, rfl, hopen, rfl⟩ | ⟨rfl, _, rfl⟩ |
    ⟨n, l, bs, rfl, _, hbound, rfl⟩ | ⟨n, v, l, rfl, _, _, hbound, rfl⟩ |
    ⟨id, cnt, n, p, rfl, hlen, hp, rfl⟩ | ⟨k, rfl, hflen, hnone, hok, rfl⟩ |
    ⟨id, cnt, n, p, rfl, hflen, hp, rfl⟩
  · exact .crcInit
  · exact .crcAdd b hopen
  · exact .crcFinal
  · exact .curRead n _ hbound
  · exact .curWrite n v hbound
  · exact .encode id cnt n p hlen hp
  · exact .failing hflen hnone hok
  · exact .delivering id cnt n p hflen hp

/-- A BUS_WR that completes is the CMD write of a command, with the command's effect, or a plain
write. -/
theorem writeBody_effect {size : AccessSize} {addr : Addr} {w : Word}
    (h : writeBody size addr w s = .ok t) :
    (size = .word ∧ addr = 0x00000#20 ∧ ∃ c, encodeInstr c = .command w ∧ CommandEffect s c t) ∨
    ((size ≠ .word ∨ addr ≠ 0x00000#20) ∧ PlainWriteEffect s addr t) := by
  rcases writeBody_ok_cases h with ⟨rfl, rfl, c, hc, hdecode, hbody⟩ | ⟨_, rfl, rfl⟩ | ⟨_, rfl, rfl⟩ |
    ⟨_, rfl, rfl⟩ | ⟨_, rfl, rfl⟩ | ⟨_, rfl, rfl⟩ | ⟨_, rfl, rfl⟩ | ⟨a, rfl, ha, haddr, rfl⟩ |
    ⟨a, rfl, ha, haddr, rfl⟩
  · exact .inl ⟨rfl, rfl, c, encodeInstr_of_decodeCmd hdecode, commandEffect_of_commandBody hc hbody⟩
  · exact .inr ⟨.inr (by decide), .id _⟩
  · exact .inr ⟨.inr (by decide), .cnt _⟩
  · exact .inr ⟨.inr (by decide), .len _⟩
  · exact .inr ⟨.inr (by decide), .flen _⟩
  · exact .inr ⟨.inr (by decide), .off _⟩
  · exact .inr ⟨.inr (by decide), .data _⟩
  · exact .inr ⟨.inl (by decide), .frame _ ha haddr⟩
  · exact .inr ⟨.inl (by decide), .payload _ ha haddr⟩

/-- All an instruction can do: nothing, return a value, record a fault, a command's effect (its own,
or that of the command it carries), or a plain write. -/
theorem exec_effect {i : Instr} (h : exec i s = .next t) :
    t = s ∨
    (∃ size addr v, i = .busRd size addr ∧ t = s.returning v) ∨
    (s.faultCause = .none ∧ ∃ e : Raised, e.cause ≠ .none ∧ t = raised s e.cause e.info) ∨
    (∃ c w, carries i c w ∧ CommandEffect s c t) ∨
    (∃ size addr w, i = .busWr size addr w ∧ (size ≠ .word ∨ addr ≠ 0x00000#20) ∧
      PlainWriteEffect s addr t) := by
  rcases exec_cases h with ⟨size, addr, v, hi, ht⟩ | ⟨_, ht⟩ | ⟨hs, e, he, ht⟩ | ⟨_, hi, hbody⟩ |
    ⟨_, size, addr, w, rfl, hbody⟩
  · exact .inr (.inl ⟨size, addr, v, hi, ht⟩)
  · exact .inl ht
  · exact .inr (.inr (.inl ⟨hs, e, faultsWith_cause he, ht⟩))
  · obtain ⟨w, hw⟩ := exists_word_of_isCommand hi
    exact .inr (.inr (.inr (.inl ⟨i, w, ⟨hw, .inl rfl⟩, commandEffect_of_commandBody hi hbody⟩)))
  · rcases writeBody_effect hbody with ⟨rfl, rfl, c, hword, heffect⟩ | ⟨hne, heffect⟩
    · exact .inr (.inr (.inr (.inl ⟨c, w, ⟨hword, .inr rfl⟩, heffect⟩)))
    · exact .inr (.inr (.inr (.inr ⟨size, addr, w, rfl, hne, heffect⟩)))

/-! ### The invariant -/

theorem State.reset_inv (actions : List HostAction) (reads : List Word) :
    State.Inv { State.reset with host := actions, reads := reads } where
  fbuf_wf := rfl
  fbuf_within := rfl
  pbuf_wf := rfl
  pbuf_within := rfl
  info_zero _ := rfl
  final_value h := by cases h
  decoded_flen h := absurd rfl h
  decoded_ok h := by cases h

theorem CommandEffect.keeps_inv {c : Instr} (h : CommandEffect s c t) (hs : s.Inv) : t.Inv := by
  cases h with
  | crcInit => exact { hs with final_value := fun h => by cases h }
  | crcAdd b hopen => exact { hs with final_value := fun h => absurd h hopen }
  | crcFinal => exact { hs with final_value := fun _ => rfl }
  | curRead n v hbound => exact { hs with }
  | curWrite n v hbound =>
    have hfit : s.off.toNat + (leBytes n.toNat v).length ≤ Config.fbufSize := by
      rw [leBytes_length]
      exact le_trans hbound (Nat.min_le_right _ _)
    exact { hs with
      fbuf_wf := Memory.store_wf hs.fbuf_wf _ _
      fbuf_within := Memory.store_within hs.fbuf_within hfit }
  | encode id cnt n p hlen hp =>
    have hfit : 0 + (frameBytes id cnt n p).length ≤ Config.fbufSize := by
      have hn := n.isLt
      rw [frameBytes_length, Config.fbufSize]
      omega
    exact { hs with
      fbuf_wf := Memory.store_wf hs.fbuf_wf _ _
      fbuf_within := Memory.store_within hs.fbuf_within hfit
      decoded_flen := fun _ => rfl }
  | failing hflen hnone hok =>
    exact { hs with
      decoded_flen := fun _ => hflen
      decoded_ok := fun h => absurd h hok }
  | delivering id cnt n p hflen hp =>
    have hfit : 0 + p.length ≤ Config.pbufSize := by
      have hn := n.isLt
      rw [Config.pbufSize]
      omega
    exact { hs with
      pbuf_wf := Memory.store_wf hs.pbuf_wf _ _
      pbuf_within := Memory.store_within hs.pbuf_within hfit
      decoded_flen := fun _ => hflen
      decoded_ok := fun _ => ⟨rfl, rfl, rfl⟩ }

theorem PlainWriteEffect.keeps_inv {addr : Addr} (h : PlainWriteEffect s addr t) (hs : s.Inv) :
    t.Inv := by
  cases h with
  | id v =>
    exact { hs with decoded_ok := fun h =>
      have ⟨_, hcnt, hlen⟩ := hs.decoded_ok h
      ⟨rfl, hcnt, hlen⟩ }
  | cnt v =>
    exact { hs with decoded_ok := fun h =>
      have ⟨hid, _, hlen⟩ := hs.decoded_ok h
      ⟨hid, rfl, hlen⟩ }
  | len v =>
    exact { hs with decoded_ok := fun h =>
      have ⟨hid, hcnt, _⟩ := hs.decoded_ok h
      ⟨hid, hcnt, rfl⟩ }
  | flen v => exact { hs with decoded_flen := fun _ => rfl }
  | off v => exact { hs with }
  | data v => exact { hs with }
  | frame b ha haddr =>
    exact { hs with
      fbuf_wf := Memory.store_wf hs.fbuf_wf _ _
      fbuf_within := Memory.store_within hs.fbuf_within ha }
  | payload b ha haddr =>
    exact { hs with
      pbuf_wf := Memory.store_wf hs.pbuf_wf _ _
      pbuf_within := Memory.store_within hs.pbuf_within ha }

theorem exec_keeps_inv {i : Instr} (h : exec i s = .next t) (hs : s.Inv) : t.Inv := by
  rcases exec_effect h with rfl | ⟨_, _, v, _, rfl⟩ | ⟨_, e, he, rfl⟩ | ⟨_, _, _, heffect⟩ |
    ⟨_, _, _, _, _, heffect⟩
  · exact hs
  · exact { hs with }
  · exact { hs with info_zero := fun h => absurd h he }
  · exact heffect.keeps_inv hs
  · exact heffect.keeps_inv hs

end Sys2Proof.Machine

namespace Sys2Proof.Claims

open Sys2Proof.Machine

/-- Settles O2: the buffers are empty, and every other clause speaks of a field that RESET sets to
the value it asks for. -/
theorem resetStatesMeetInv : Obligations.ResetStatesMeetInv :=
  fun actions => State.reset_inv actions []

/-- Settles O3: RESET answers a reset state, and each effect of an instruction keeps the clauses of
the fields it writes. -/
theorem stepKeepsInv : Obligations.StepKeepsInv := by
  intro s t hs h
  rcases step_cases h with ⟨_, rfl⟩ | ⟨rest, _, rfl⟩ | ⟨_, rest, _, _, _, hexec⟩
  · exact hs
  · exact State.reset_inv rest s.reads
  · exact exec_keeps_inv hexec { hs with }

end Sys2Proof.Claims
end

section
/-! PROOFS. The decoder and the encoder as inverses of each other, what a step takes from the host's
list, and the statements about them (30_encoding.md R64 to R75, 70_reset_and_hazards.md R137). -/

namespace Sys2Proof

open Sys2Proof.Machine

/-! ### Decoding what the encoder answers -/

theorem decodeBus_busRdDescriptor (size : AccessSize) (addr : Addr) :
    decodeBus (busRdDescriptor size addr) = .ok (.busRd size addr) := by
  have h := decodeBus_of_read (d := busRdDescriptor size addr) (busDescriptor_reserved ..)
    (busDescriptor_dir ..) (dataField_busDescriptor ..)
  rwa [busRdDescriptor, sizeField_busDescriptor, addrField_busDescriptor] at h

theorem decodeBus_busWrDescriptor {size : AccessSize} {data : Word} (h : size.holds data = true)
    (addr : Addr) : decodeBus (busWrDescriptor size addr data) = .ok (.busWr size addr data) := by
  have hdecode := decodeBus_of_write (d := busWrDescriptor size addr data)
    (busDescriptor_reserved ..) (busDescriptor_dir ..)
    (by rwa [busWrDescriptor, sizeField_busDescriptor, dataField_busDescriptor])
  rwa [busWrDescriptor, sizeField_busDescriptor, addrField_busDescriptor,
    dataField_busDescriptor] at hdecode

/-! ### Encoding what the decoder answers -/

/-- A command's operands are encodable by their types (30_encoding.md R67, R68). -/
theorem wellFormed_of_isCommand {i : Instr} (h : i.isCommand = true) : i.wellFormed = true := by
  cases i
  case busRd => cases h
  case busWr => cases h
  all_goals rfl

/-- A transaction that decodes from a descriptor has that descriptor, and data of its own size
(30_encoding.md R73). -/
theorem encodeInstr_of_decodeBus {d : Descriptor} {i : Instr} (h : decodeBus d = .ok i) :
    encodeInstr i = .transaction d ∧ i.wellFormed = true := by
  unfold decodeBus at h
  split_ifs at h with hreserved hdir hholds hdata
  all_goals
    cases h
    have hfields := busDescriptor_fields (not_not.mp hreserved)
  · rw [hdir] at hfields
    exact ⟨congrArg Encoding.transaction hfields, hholds⟩
  · rw [Bool.eq_false_of_not_eq_true hdir, hdata] at hfields
    exact ⟨congrArg Encoding.transaction hfields, rfl⟩

/-- A table word that decodes is a command word or a descriptor (30_encoding.md R64). -/
theorem decodeTableWord_cases {nbits w : Nat} {i : Instr} (h : decodeTableWord nbits w = some i) :
    (nbits = 32 ∧ decodeCmd (BitVec.ofNat 32 w) = .ok i) ∨
    (nbits = 64 ∧ decodeBus (BitVec.ofNat 64 w) = .ok i) := by
  have toOption_some : ∀ {x : Except DecodeError Instr}, x.toOption = some i → x = .ok i := by
    rintro (_ | _) h
    · cases h
    · exact congrArg _ (Option.some.inj h)
  unfold decodeTableWord tableEncoding at h
  split at h
  next => cases h
  next e he =>
    split_ifs at he with hbits h32 h64 <;> cases he
    · exact .inl ⟨h32, toOption_some h⟩
    · exact .inr ⟨h64, toOption_some h⟩

end Sys2Proof

namespace Sys2Proof.Machine

open Sys2Proof.Claims

variable {s : State}

/-! ### What a step takes from the host's list (logs 1, 3, 6) -/

theorem step_of_host_nil (h : s.host = []) : step s = .next s := by
  rw [step, nextAction, h]

theorem step_of_host_transaction {d : Descriptor} {rest : List HostAction} {i : Instr}
    (h : s.host = .transaction d :: rest) (hd : decodeBus d = .ok i) :
    step s = exec i { s with host := rest } := by
  simp only [step, nextAction, h, hd]

theorem step_of_host_not_transaction {d : Descriptor} {rest : List HostAction} {e : DecodeError}
    (h : s.host = .transaction d :: rest) (hd : decodeBus d = .error e) :
    step s = .refused (.notATransaction d) := by
  simp only [step, nextAction, h, hd]

/-! ### The CMD write that carries a command -/

/-- Writing a command's word to CMD is the command, faulted or not (30_encoding.md R72, log 5). -/
theorem exec_cmdWrite_eq_command {i : Instr} {w : Word} (h : encodeInstr i = .command w) (s : State) :
    exec (.busWr .word 0x00000#20 w) s = exec i s := by
  have hdecode := decodeCmd_of_encodeInstr h
  by_cases hs : s.faultCause = .none
  · exact (execBusWr_cmd hs w).trans (execute_of_decode hdecode)
  · rw [exec_command (decodeCmd_isCommand hdecode), transact_of_faulted hs, exec_busWr,
      transact_of_faulted hs]

/-- A step on the CMD write of a command's word is the command (30_encoding.md R75). -/
theorem step_of_host_cmdWrite {i : Instr} {w : Word} {rest : List HostAction}
    (h : encodeInstr i = .command w) (hhost : s.host = asmWr .cmd w :: rest) :
    step s = exec i { s with host := rest } := by
  rw [step_of_host_transaction hhost (decodeBus_busWrDescriptor rfl _)]
  exact exec_cmdWrite_eq_command h _

/-- A command mnemonic is the CMD write of the command's word (30_encoding.md R75). -/
theorem asmInstr_of_encodeInstr {i : Instr} {w : Word} (h : encodeInstr i = .command w) :
    asmInstr i = asmWr .cmd w := by
  rw [asmInstr, h]

/-! ### Termination -/

theorem transact_answers_next (s : State) (body : Except Raised State) :
    ∃ t, transact s body = .next t := by
  by_cases hs : s.faultCause = .none
  · exact ⟨_, transact_of_clear hs body⟩
  · exact ⟨_, transact_of_faulted hs body⟩

/-- Every arm is a transaction or a read, and both answer faulted or not (42_codec.md R103). -/
theorem exec_answers_next (i : Instr) (s : State) : ∃ t, exec i s = .next t := by
  cases i with
  | busRd size addr =>
    by_cases hs : s.faultCause = .none
    · exact ⟨_, execBusRd_of_clear hs size addr⟩
    · exact ⟨_, execBusRd_of_faulted hs size addr⟩
  | busWr size addr w =>
    rw [exec_busWr]
    exact transact_answers_next s _
  | _ => exact transact_answers_next s _

end Sys2Proof.Machine

namespace Sys2Proof.Claims

open Sys2Proof.Machine

/-- Settles O7: the fields of an encoded word or descriptor are the operands it was made from. -/
theorem decodeOfEncodeIsTheInstruction : Obligations.DecodeOfEncodeIsTheInstruction := by
  intro i hi
  cases i with
  | busRd size addr => exact decodeBus_busRdDescriptor size addr
  | busWr size addr data => exact decodeBus_busWrDescriptor hi addr
  | _ => exact decodeCmd_of_encodeInstr rfl

/-- Settles O8: the decoder accepts a word or a descriptor only when its fields make it up whole. -/
theorem encodeOfDecodeIsTheWord : Obligations.EncodeOfDecodeIsTheWord := by
  intro e i h
  cases e with
  | command w =>
    exact ⟨encodeInstr_of_decodeCmd h, wellFormed_of_isCommand (decodeCmd_isCommand h)⟩
  | transaction d => exact encodeInstr_of_decodeBus h

/-- Settles O5: a table word is a command word, whose action is the CMD write of it, or a descriptor,
whose action it is. -/
theorem stepRunsTheTableWord : Obligations.StepRunsTheTableWord := by
  intro s nbits w i h
  rcases decodeTableWord_cases h with ⟨rfl, hdecode⟩ | ⟨rfl, hdecode⟩
  · exact step_of_host_cmdWrite (s := s.withFetchWord 32 w) (encodeInstr_of_decodeCmd hdecode) rfl
  · exact step_of_host_transaction (s := s.withFetchWord 64 w) rfl hdecode

/-- Settles O13: each mnemonic's action is the CMD write of the command's word. -/
theorem mnemonicIsOneCmdWrite : Obligations.MnemonicIsOneCmdWrite := by
  refine ⟨rfl, fun b => ?add, rfl, fun n => ?read, fun n => ?write, rfl, rfl,
    fun i s rest hi hhost => ?step⟩
  case add => rw [← crcAddWord_eq_or]; rfl
  case read => rw [← curReadWord_eq_or]; rfl
  case write => rw [← curWriteWord_eq_or]; rfl
  case step =>
    obtain ⟨w, hw⟩ := exists_word_of_isCommand hi
    rw [asmInstr_of_encodeInstr hw] at hhost
    exact step_of_host_cmdWrite hw hhost

/-- Settles O4: each clause is one answer of the next action. -/
theorem stepTakesTheNextHostAction : Obligations.StepTakesTheNextHostAction :=
  ⟨fun _ => step_of_host_nil, fun _ _ => step_of_host_reset, fun _ _ _ _ => step_of_host_transaction,
    fun _ _ _ _ => step_of_host_not_transaction⟩

/-- Settles O6: every arm is a transaction or a read, and a faulted block's transaction does
nothing. -/
theorem everyInstructionAnswersNext : Obligations.EveryInstructionAnswersNext := by
  refine ⟨exec_answers_next, fun i s hi hs => ?_⟩
  rw [exec_command hi, transact_of_faulted hs]

/-- Settles O9: the decoder evaluated on each word. -/
theorem wordsOfTheSpecDecode : Obligations.WordsOfTheSpecDecode := by
  unfold Obligations.WordsOfTheSpecDecode
  decide

end Sys2Proof.Claims
end

section
/-! PROOFS. What each instruction may write and what it leaves unchanged, and the statements about it
(10_state.md R14, R19, R33, 20_memory.md R55, R56, 40_crc.md R83 to R85, 41_cursor.md R91, R92,
42_codec.md R97, R98). -/

namespace Sys2Proof.Machine

open Sys2Proof.Claims

variable {s t : State}

/-! ### The fields a command may change -/

theorem DecodeResult.code_toNat (r : DecodeResult) :
    r.code.toNat = resultNumber r ∧ r.code.toNat ≤ 4 := by
  cases r <;> decide

/-- Only DECODE writes RESULT, and never NONE (10_state.md R19). -/
theorem CommandEffect.decode_of_result_ne {c : Instr} (h : CommandEffect s c t)
    (hne : t.result ≠ s.result) : c = .decode ∧ t.result ≠ .none := by
  cases h with
  | failing hflen hnone hok => exact ⟨rfl, hnone⟩
  | delivering id cnt n p hflen hp => exact ⟨rfl, by simp⟩
  | _ => exact absurd rfl hne

/-- Only CRC_INIT and CRC_ADD write CRCREG (10_state.md R14). -/
theorem CommandEffect.crc_of_crcReg_ne {c : Instr} (h : CommandEffect s c t)
    (hne : t.crcReg ≠ s.crcReg) : c = .crcInit ∨ ∃ b, c = .crcAdd b := by
  cases h with
  | crcInit => exact .inl rfl
  | crcAdd b hopen => exact .inr ⟨b, rfl⟩
  | _ => exact absurd rfl hne

/-- Only CRC_INIT and CRC_FINAL write CRC_STATE (10_state.md R14). -/
theorem CommandEffect.crc_of_crcState_ne {c : Instr} (h : CommandEffect s c t)
    (hne : t.crcState ≠ s.crcState) : c = .crcInit ∨ c = .crcFinal := by
  cases h with
  | crcInit => exact .inl rfl
  | crcFinal => exact .inr rfl
  | _ => exact absurd rfl hne

/-- Only CRC_FINAL writes CRCVAL (10_state.md R14). -/
theorem CommandEffect.crcFinal_of_crcVal_ne {c : Instr} (h : CommandEffect s c t)
    (hne : t.crcVal ≠ s.crcVal) : c = .crcFinal := by
  cases h with
  | crcFinal => rfl
  | _ => exact absurd rfl hne

/-- A write that is not to CMD changes registers and buffers of the host, not RESULT and not the CRC
unit (20_memory.md R52 item 4, R56). -/
theorem PlainWriteEffect.keeps_result_and_crc {addr : Addr} (h : PlainWriteEffect s addr t) :
    t.result = s.result ∧ t.crcReg = s.crcReg ∧ t.crcState = s.crcState ∧ t.crcVal = s.crcVal := by
  cases h <;> exact ⟨rfl, rfl, rfl, rfl⟩

/-- An instruction that changes RESULT or an item of the CRC unit carries a command with that
effect. -/
theorem exec_command_of_result_or_crc_ne {i : Instr} (h : exec i s = .next t)
    (hne : ¬ (t.result = s.result ∧ t.crcReg = s.crcReg ∧ t.crcState = s.crcState ∧
      t.crcVal = s.crcVal)) : ∃ c w, carries i c w ∧ CommandEffect s c t := by
  rcases exec_effect h with rfl | ⟨_, _, _, _, rfl⟩ | ⟨_, _, _, rfl⟩ | hcommand |
    ⟨_, _, _, _, _, heffect⟩
  · exact absurd ⟨rfl, rfl, rfl, rfl⟩ hne
  · exact absurd ⟨rfl, rfl, rfl, rfl⟩ hne
  · exact absurd ⟨rfl, rfl, rfl, rfl⟩ hne
  · exact hcommand
  · exact absurd heffect.keeps_result_and_crc hne

/-! ### Valid bits -/

/-- Every register and every buffer byte that is valid in `s` is valid in `t` (10_state.md R33). -/
structure ValidBitsKept (s t : State) : Prop where
  id : s.id ≠ none → t.id ≠ none
  cnt : s.cnt ≠ none → t.cnt ≠ none
  len : s.len ≠ none → t.len ≠ none
  flen : s.flen ≠ none → t.flen ≠ none
  data : s.data ≠ none → t.data ≠ none
  crcVal : s.crcVal ≠ none → t.crcVal ≠ none
  fbuf : ∀ a, s.fbuf.read a ≠ none → t.fbuf.read a ≠ none
  pbuf : ∀ a, s.pbuf.read a ≠ none → t.pbuf.read a ≠ none

theorem ValidBitsKept.refl (s : State) : ValidBitsKept s s :=
  by constructor <;> simp only [imp_self, implies_true]

theorem Memory.read_store_ne_none {m : Memory} {x : Nat} (a : Nat) (bs : List Byte)
    (h : m.read x ≠ none) : (m.store a bs).read x ≠ none :=
  Option.isSome_iff_ne_none.mp (Memory.read_store_isSome (Option.isSome_iff_ne_none.mpr h))

theorem CommandEffect.validBitsKept {c : Instr} (h : CommandEffect s c t) : ValidBitsKept s t := by
  cases h with
  | crcInit => exact { ValidBitsKept.refl s with }
  | crcAdd b hopen => exact { ValidBitsKept.refl s with }
  | crcFinal => exact { ValidBitsKept.refl s with crcVal := fun _ => Option.some_ne_none _ }
  | curRead n v hbound => exact { ValidBitsKept.refl s with data := fun _ => Option.some_ne_none _ }
  | curWrite n v hbound =>
    exact { ValidBitsKept.refl s with fbuf := fun _ => Memory.read_store_ne_none _ _ }
  | encode id cnt n p hlen hp =>
    exact { ValidBitsKept.refl s with
      flen := fun _ => Option.some_ne_none _
      fbuf := fun _ => Memory.read_store_ne_none _ _ }
  | failing hflen hnone hok => exact { ValidBitsKept.refl s with }
  | delivering id cnt n p hflen hp =>
    exact { ValidBitsKept.refl s with
      id := fun _ => Option.some_ne_none _
      cnt := fun _ => Option.some_ne_none _
      len := fun _ => Option.some_ne_none _
      pbuf := fun _ => Memory.read_store_ne_none _ _ }

theorem PlainWriteEffect.validBitsKept {addr : Addr} (h : PlainWriteEffect s addr t) :
    ValidBitsKept s t := by
  cases h with
  | id v => exact { ValidBitsKept.refl s with id := fun _ => Option.some_ne_none _ }
  | cnt v => exact { ValidBitsKept.refl s with cnt := fun _ => Option.some_ne_none _ }
  | len v => exact { ValidBitsKept.refl s with len := fun _ => Option.some_ne_none _ }
  | flen v => exact { ValidBitsKept.refl s with flen := fun _ => Option.some_ne_none _ }
  | off v => exact { ValidBitsKept.refl s with }
  | data v => exact { ValidBitsKept.refl s with data := fun _ => Option.some_ne_none _ }
  | frame b ha haddr =>
    exact { ValidBitsKept.refl s with fbuf := fun _ => Memory.read_store_ne_none _ _ }
  | payload b ha haddr =>
    exact { ValidBitsKept.refl s with pbuf := fun _ => Memory.read_store_ne_none _ _ }

theorem exec_validBitsKept {i : Instr} (h : exec i s = .next t) : ValidBitsKept s t := by
  rcases exec_effect h with rfl | ⟨_, _, _, _, rfl⟩ | ⟨_, _, _, rfl⟩ | ⟨_, _, _, heffect⟩ |
    ⟨_, _, _, _, _, heffect⟩
  · exact .refl t
  · exact { ValidBitsKept.refl s with }
  · exact { ValidBitsKept.refl s with }
  · exact heffect.validBitsKept
  · exact heffect.validBitsKept

/-! ### Frames -/

/-- A command records a fault, changes nothing, or has its effect; the first two are the state before
it with a fault record. -/
theorem exec_command_effect {i : Instr} (hi : i.isCommand = true) (h : exec i s = .next t) :
    (∃ cause info, t = raised s cause info) ∨ CommandEffect s i t := by
  rw [exec_command hi] at h
  rcases transact_cases h with ⟨_, rfl⟩ | ⟨_, hbody⟩ | ⟨_, e, _, rfl⟩
  · exact .inl ⟨t.faultCause, t.faultInfo, rfl⟩
  · exact .inr (commandEffect_of_commandBody hi hbody)
  · exact .inl ⟨e.cause, e.info, rfl⟩

/-- A write that is not to CMD records a fault, changes nothing, or stores what it names. -/
theorem exec_plainWrite_effect {size : AccessSize} {addr : Addr} {w : Word}
    (hne : size ≠ .word ∨ addr ≠ 0x00000#20) (h : exec (.busWr size addr w) s = .next t) :
    (∃ cause info, t = raised s cause info) ∨ PlainWriteEffect s addr t := by
  rw [exec_busWr] at h
  rcases transact_cases h with ⟨_, rfl⟩ | ⟨_, hbody⟩ | ⟨_, e, _, rfl⟩
  · exact .inl ⟨t.faultCause, t.faultInfo, rfl⟩
  · rcases writeBody_effect hbody with ⟨rfl, rfl, _⟩ | ⟨_, heffect⟩
    · simp at hne
    · exact .inr heffect
  · exact .inl ⟨e.cause, e.info, rfl⟩

end Sys2Proof.Machine

namespace Sys2Proof.Claims

open Sys2Proof.Machine

/-- Settles O47: of the effects only DECODE's change RESULT, and a fault changes nothing but its
record. -/
theorem onlyDecodeWritesResult : Obligations.OnlyDecodeWritesResult := by
  refine ⟨DecodeResult.code_toNat, fun i s t h hne => ?decode, fun s t h ht => ?faulted⟩
  case decode =>
    obtain ⟨c, w, hcarries, heffect⟩ :=
      exec_command_of_result_or_crc_ne h fun ⟨hresult, _⟩ => hne hresult
    obtain ⟨rfl, hnone⟩ := heffect.decode_of_result_ne hne
    obtain rfl : decodeWord = w := Encoding.command.inj hcarries.1
    exact ⟨hcarries, hnone⟩
  case faulted =>
    rw [exec_command rfl] at h
    rcases transact_cases h with ⟨_, rfl⟩ | ⟨hs, hbody⟩ | ⟨_, _, _, rfl⟩
    · rfl
    · exact absurd ((commandBody_ok_faultCause rfl hbody).trans hs) ht
    · rfl

/-- Settles O48: of the effects only those of the named commands change the item. -/
theorem onlyCrcCommandsWriteTheCrcUnit : Obligations.OnlyCrcCommandsWriteTheCrcUnit := by
  refine fun i s t h => ⟨fun hne => ?crcReg, fun hne => ?crcState, fun hne => ?crcVal⟩
  case crcReg =>
    obtain ⟨c, w, hcarries, heffect⟩ :=
      exec_command_of_result_or_crc_ne h fun ⟨_, hreg, _, _⟩ => hne hreg
    exact ⟨c, w, hcarries, heffect.crc_of_crcReg_ne hne⟩
  case crcState =>
    obtain ⟨c, w, hcarries, heffect⟩ :=
      exec_command_of_result_or_crc_ne h fun ⟨_, _, hstate, _⟩ => hne hstate
    exact ⟨c, w, hcarries, heffect.crc_of_crcState_ne hne⟩
  case crcVal =>
    obtain ⟨c, w, hcarries, heffect⟩ :=
      exec_command_of_result_or_crc_ne h fun ⟨_, _, _, hval⟩ => hne hval
    obtain rfl := heffect.crcFinal_of_crcVal_ne hne
    exact ⟨w, hcarries⟩

/-- Settles O49: a step is an instruction, whose effects only set valid bits, or it waits. -/
theorem onlyResetClearsAValidBit : Obligations.OnlyResetClearsAValidBit := by
  intro s t h hreset
  have kept : ValidBitsKept s t := by
    rcases step_cases h with ⟨_, rfl⟩ | ⟨rest, hhost, _⟩ | ⟨_, _, _, _, _, hexec⟩
    · exact .refl t
    · exact absurd hhost (hreset rest)
    · exact { exec_validBitsKept hexec with }
  exact ⟨kept.id, kept.cnt, kept.len, kept.flen, kept.data, kept.crcVal, kept.fbuf, kept.pbuf⟩

/-- Settles O50: each instruction's effect names the fields it writes, and a store changes no byte
outside its range. -/
theorem instructionFrames : Obligations.InstructionFrames := by
  refine fun s t => ⟨fun i hi h => ?crc, fun n h => ?curRead, fun n h => ?curWrite, fun h => ?encode,
    fun h => ?decode, fun size addr h => ?busRd, fun size addr w hne h => ?busWr⟩
  case crc =>
    have hcommand : i.isCommand = true := by rcases hi with rfl | rfl | ⟨b, rfl⟩ <;> rfl
    rcases exec_command_effect hcommand h with ⟨_, _, rfl⟩ | heffect
    · rfl
    · rcases hi with rfl | rfl | ⟨b, rfl⟩ <;> cases heffect <;> rfl
  case curRead =>
    rcases exec_command_effect rfl h with ⟨_, _, rfl⟩ | heffect
    · rfl
    · cases heffect; rfl
  case curWrite =>
    rcases exec_command_effect rfl h with ⟨_, _, rfl⟩ | heffect
    · exact ⟨rfl, fun _ _ => rfl⟩
    · cases heffect with
      | curWrite n v hbound =>
        exact ⟨rfl, fun x hx => Memory.read_store_outside (by rwa [leBytes_length])⟩
  case encode =>
    rcases exec_command_effect rfl h with ⟨_, _, rfl⟩ | heffect
    · exact ⟨rfl, fun _ _ _ _ => rfl⟩
    · cases heffect with
      | encode id cnt n p hlen hp =>
        refine ⟨rfl, fun n' hn' x hx => Memory.read_store_outside ?_⟩
        obtain rfl : n = n' := Option.some.inj (hlen.symm.trans hn')
        rw [frameBytes_length]
        omega
  case decode =>
    rcases exec_command_effect rfl h with ⟨_, _, rfl⟩ | heffect
    · exact ⟨rfl, fun _ _ _ _ => rfl⟩
    · cases heffect with
      | failing hflen hnone hok => exact ⟨rfl, fun _ _ _ _ => rfl⟩
      | delivering id cnt n p hflen hp =>
        refine ⟨rfl, fun n' hn' x hx => Memory.read_store_outside ?_⟩
        obtain rfl : n = n' := Option.some.inj hn'
        omega
  case busRd =>
    rcases execBusRd_cases h with ⟨_, rfl⟩ | ⟨_, _, _, rfl⟩ <;> rfl
  case busWr =>
    rcases exec_plainWrite_effect hne h with ⟨_, _, rfl⟩ | heffect
    · simp [raised]
    · cases heffect with
      | frame b ha haddr =>
        refine ⟨rfl, fun _ => rfl, fun _ => rfl, fun _ => rfl, fun _ => rfl, fun _ => rfl,
          fun _ => rfl, fun x hx => Memory.read_store_outside ?_, fun _ _ => rfl⟩
        rw [List.length_singleton]
        omega
      | payload b ha haddr =>
        refine ⟨rfl, fun _ => rfl, fun _ => rfl, fun _ => rfl, fun _ => rfl, fun _ => rfl,
          fun _ => rfl, fun _ _ => rfl, fun x hx => Memory.read_store_outside ?_⟩
        rw [List.length_singleton]
        omega
      | _ => simp

end Sys2Proof.Claims
end

section
/-! PROOFS. A buffer byte by its bus address, reads and writes repeated, the printed CRC values, and
the statements about them (20_memory.md R50, R55, R57, 40_crc.md R81). -/

namespace Sys2Proof.Machine

open Sys2Proof.Claims

variable {s t : State}

/-! ### A BUS_RD that returned a value -/

theorem got_injective {u v : Word} (h : got s u = got s v) : u = v := by
  simpa [got] using congrArg State.reads h

/-- A block that is not faulted returns only the value at the address: a fault changes the fault
record (20_memory.md R55). -/
theorem busReadValue_of_exec_busRd {size : AccessSize} {addr : Addr} {v : Word}
    (hs : s.faultCause = .none) (h : exec (.busRd size addr) s = .next (got s v)) :
    busReadValue size addr s = .ok v := by
  cases hv : busReadValue size addr s with
  | ok u =>
    exact congrArg _ (got_injective (Host.Outcome.next.inj ((exec_busRd_of_ok hs hv).symm.trans h)))
  | error e =>
    have hraised : raised s e.cause e.info = got s v :=
      Host.Outcome.next.inj ((exec_busRd_of_error hs hv).symm.trans h)
    have hcause : e.cause = s.faultCause := congrArg State.faultCause hraised
    exact absurd (hcause.trans hs) (faultsWith_cause (.inl ⟨_, _, rfl, hv⟩))

/-! ### A buffer byte by its bus address -/

/-- The byte of FBUF or PBUF at a bus address; `none` also where no buffer is mapped (20_memory.md
R47). -/
def State.byteAt (s : State) (addr : Addr) : Option Byte :=
  match place .byte addr with
  | some (.frame a) => s.fbuf.read a
  | some (.payload a) => s.pbuf.read a
  | _ => none

theorem State.byteAt_of_frame {addr : Addr} {a : Nat} (h : place .byte addr = some (.frame a)) :
    s.byteAt addr = s.fbuf.read a := by
  rw [State.byteAt, h]

theorem State.byteAt_of_payload {addr : Addr} {a : Nat} (h : place .byte addr = some (.payload a)) :
    s.byteAt addr = s.pbuf.read a := by
  rw [State.byteAt, h]

theorem place_frame_of_range {addr : Addr} (hlo : 0x10000 ≤ addr.toNat) (hhi : addr.toNat ≤ 0x20005) :
    place .byte addr = some (.frame (addr.toNat - 0x10000)) :=
  place_eq_frame.mpr ⟨rfl, by omega, by omega⟩

theorem place_payload_of_range {addr : Addr} (hlo : 0x30000 ≤ addr.toNat)
    (hhi : addr.toNat ≤ 0x3FFFE) : place .byte addr = some (.payload (addr.toNat - 0x30000)) :=
  place_eq_payload.mpr ⟨rfl, by omega, by omega⟩

/-- LeRead of one byte (41_cursor.md R87). -/
theorem State.leReadFrame_one_eq_ok {a : Nat} {v : Word} :
    s.leReadFrame a 1 = .ok v ↔ ∃ b, s.fbuf.read a = some b ∧ b.setWidth 32 = v := by
  rw [State.leReadFrame, State.loadFrame]
  cases h : s.fbuf.read a <;> simp [Memory.load, h, leValue_singleton]

theorem State.loadPayload_one_eq_ok {a : Nat} {v : Word} :
    (s.loadPayload a 1).map byteValue = .ok v ↔
      ∃ b, s.pbuf.read a = some b ∧ b.setWidth 32 = v := by
  rw [State.loadPayload]
  cases h : s.pbuf.read a <;> simp [Memory.load, h, Except.map, byteValue, leValue_singleton]

/-- A 1-byte BUS_RD returns exactly the valid byte at its address, zero-extended (20_memory.md
R55). -/
theorem busReadValue_byte_eq_ok {addr : Addr} {v : Word} :
    busReadValue .byte addr s = .ok v ↔ ∃ b, s.byteAt addr = some b ∧ b.setWidth 32 = v := by
  rw [busReadValue, State.byteAt]
  cases hp : place .byte addr with
  | none => simp
  | some p =>
    cases p with
    | register r => cases (place_eq_register.mp hp).1
    | frame a => exact State.leReadFrame_one_eq_ok
    | payload a => exact State.loadPayload_one_eq_ok

/-- A 1-byte BUS_RD of an invalid buffer byte faults with the address (20_memory.md R55). -/
theorem exec_busRd_of_byte_invalid {addr : Addr} (hs : s.faultCause = .none)
    (hplace : place .byte addr ≠ none) (h : s.byteAt addr = none) :
    exec (.busRd .byte addr) s = .next (raised s .uninitRead (addr.setWidth 32)) := by
  cases hv : busReadValue .byte addr s with
  | ok v =>
    obtain ⟨b, hb, _⟩ := busReadValue_byte_eq_ok.mp hv
    cases h.symm.trans hb
  | error e =>
    rw [exec_busRd_of_error hs hv]
    rcases busReadValue_error_cases hv with ⟨_, hnone⟩ | ⟨hcause, _, hinfo⟩
    · exact absurd hnone hplace
    · rw [hcause, hinfo, addrInfo]

theorem exec_busRd_of_byte_valid {addr : Addr} {b : Byte} (hs : s.faultCause = .none)
    (h : s.byteAt addr = some b) : exec (.busRd .byte addr) s = .next (got s (b.setWidth 32)) :=
  exec_busRd_of_ok hs (busReadValue_byte_eq_ok.mpr ⟨b, h, rfl⟩)

/-- A 1-byte BUS_RD that returned a value found it at its address. -/
theorem byteAt_of_exec_busRd {addr : Addr} {v : Word} (hs : s.faultCause = .none)
    (h : exec (.busRd .byte addr) s = .next (got s v)) :
    ∃ b, s.byteAt addr = some b ∧ b.setWidth 32 = v :=
  busReadValue_byte_eq_ok.mp (busReadValue_of_exec_busRd hs h)

theorem place_byte_injective {x y : Addr} {p : Place} (hx : place .byte x = some p)
    (hy : place .byte y = some p) : x = y := by
  apply BitVec.eq_of_toNat_eq
  cases p with
  | register r => cases (place_eq_register.mp hx).1
  | frame a =>
    obtain ⟨_, _, hxa⟩ := place_eq_frame.mp hx
    obtain ⟨_, _, hya⟩ := place_eq_frame.mp hy
    exact hxa.trans hya.symm
  | payload a =>
    obtain ⟨_, _, hxa⟩ := place_eq_payload.mp hx
    obtain ⟨_, _, hya⟩ := place_eq_payload.mp hy
    exact hxa.trans hya.symm

theorem Memory.read_store_singleton (m : Memory) (a x : Nat) (b : Byte) :
    (m.store a [b]).read x = if x = a then some b else m.read x := by
  split
  next h =>
    subst h
    rw [Memory.read_store_inside (le_refl x) (by simp), Nat.sub_self]
    rfl
  next h => exact Memory.read_store_outside (by rw [List.length_singleton]; omega)

theorem State.byteAt_storeFrame (s : State) (a : Nat) (b : Byte) (addr : Addr) :
    (s.storeFrame a [b]).byteAt addr =
      if place .byte addr = some (.frame a) then some b else s.byteAt addr := by
  unfold State.byteAt
  split
  next x hp => simp [hp, Memory.read_store_singleton]
  next x hp => simp [hp]
  next hframe _ => rw [if_neg (hframe a)]

theorem State.byteAt_storePayload (s : State) (a : Nat) (b : Byte) (addr : Addr) :
    (s.storePayload a [b]).byteAt addr =
      if place .byte addr = some (.payload a) then some b else s.byteAt addr := by
  unfold State.byteAt
  split
  next x hp => simp [hp]
  next x hp => simp [hp, Memory.read_store_singleton]
  next _ hpayload => rw [if_neg (hpayload a)]

/-- A 1-byte BUS_WR of a buffer changes the byte at its address and no other (20_memory.md R57). -/
theorem exec_busWr_byte {addr : Addr} (hs : s.faultCause = .none)
    (hrange : (0x10000 ≤ addr.toNat ∧ addr.toNat ≤ 0x20005) ∨
      (0x30000 ≤ addr.toNat ∧ addr.toNat ≤ 0x3FFFE)) (b : Byte) :
    ∃ t, exec (.busWr .byte addr (b.setWidth 32)) s = .next t ∧ t.faultCause = .none ∧
      t.byteAt addr = some b ∧ ∀ other, other ≠ addr → t.byteAt other = s.byteAt other := by
  have hb : (b.setWidth 32).extractLsb' 0 8 = b := by
    rw [← BitVec.setWidth_eq_extractLsb' (by omega)]
    simp
  rcases hrange with ⟨hlo, hhi⟩ | ⟨hlo, hhi⟩
  · have hp := place_frame_of_range hlo hhi
    have hnext := exec_busWr_frame hs hp (b.setWidth 32)
    rw [hb] at hnext
    refine ⟨_, hnext, hs, ?_, fun other hne => ?_⟩
    · rw [State.byteAt_storeFrame, if_pos hp]
    · rw [State.byteAt_storeFrame, if_neg fun h => hne (place_byte_injective h hp)]
  · have hp := place_payload_of_range hlo hhi
    have hnext := exec_busWr_payload hs hp (b.setWidth 32)
    rw [hb] at hnext
    refine ⟨_, hnext, hs, ?_, fun other hne => ?_⟩
    · rw [State.byteAt_storePayload, if_pos hp]
    · rw [State.byteAt_storePayload, if_neg fun h => hne (place_byte_injective h hp)]

/-! ### Reads and plain writes, repeated (20_memory.md R50) -/

/-- The run's record of returned values is no operand of a read. -/
theorem busReadValue_got (size : AccessSize) (addr : Addr) (s : State) (v : Word) :
    busReadValue size addr (got s v) = busReadValue size addr s := by
  unfold busReadValue
  split
  next => rfl
  next r _ => cases r <;> rfl
  next => rfl
  next => rfl

theorem faultedReadValue_got (size : AccessSize) (addr : Addr) (s : State) (v : Word) :
    faultedReadValue size addr (got s v) = faultedReadValue size addr s := rfl

/-- A read that returned a value returns it again. -/
theorem exec_busRd_repeats {size : AccessSize} {addr : Addr} {v : Word}
    (h : exec (.busRd size addr) s = .next (got s v)) :
    exec (.busRd size addr) (got s v) = .next (got (got s v) v) := by
  by_cases hs : s.faultCause = .none
  · have hvalue := (busReadValue_got size addr s v).trans (busReadValue_of_exec_busRd hs h)
    exact exec_busRd_of_ok (s := got s v) hs hvalue
  · have hgot : got s (faultedReadValue size addr s) = got s v :=
      Host.Outcome.next.inj ((execBusRd_of_faulted hs size addr).symm.trans h)
    have hnext := execBusRd_of_faulted (s := got s v) hs size addr
    rwa [faultedReadValue_got, got_injective hgot] at hnext

/-- Storing the same bytes again changes nothing, whatever the list's form (log 11). -/
theorem Memory.store_store_same (m : Memory) (a : Nat) (bs : List Byte) :
    (m.store a bs).store a bs = m.store a bs := by
  have hbelow : (cellsFrom a bs).filter (fun c => decide (c.1 < a)) = [] := by
    rw [List.filter_eq_nil_iff]
    intro c hc
    have := cellsFrom_mem hc
    simp; omega
  have habove : (cellsFrom a bs).filter (fun c => decide (a + bs.length ≤ c.1)) = [] := by
    rw [List.filter_eq_nil_iff]
    intro c hc
    have := cellsFrom_mem hc
    simp; omega
  have hdisjoint : ∀ c : Host.Cell, (decide (c.1 < a) && decide (a + bs.length ≤ c.1)) = false := by
    intro c
    simp only [Bool.and_eq_false_imp, decide_eq_true_eq, decide_eq_false_iff_not]
    omega
  have hdisjoint' : ∀ c : Host.Cell, (decide (a + bs.length ≤ c.1) && decide (c.1 < a)) = false :=
    fun c => by rw [Bool.and_comm, hdisjoint]
  simp only [Memory.store, List.filter_append, List.filter_filter, hbelow, habove, hdisjoint,
    hdisjoint', Bool.and_self, List.filter_false, List.append_nil, List.nil_append]

theorem regWriteBody_again {r : Reg} {w : Word} (h : regWriteBody r w s = .ok t) :
    regWriteBody r w t = .ok t := by
  cases r
  case cmd => rfl
  case data => cases h; rfl
  case id | cnt | len | flen | off =>
    obtain ⟨v, hfield, rfl⟩ := except_map_eq_ok.mp h
    exact except_map_eq_ok.mpr ⟨v, hfield, rfl⟩
  all_goals cases h

/-- A write that is not to CMD and completed completes again and changes nothing. -/
theorem busWriteBody_again {p : Option Place} {addr : Addr} {w : Word}
    (h : busWriteBody p addr w s = .ok t) : busWriteBody p addr w t = .ok t := by
  unfold busWriteBody at h ⊢
  split at h
  next => cases h
  next => exact regWriteBody_again h
  next a =>
    cases h
    simp only [State.storeFrame, Memory.store_store_same]
  next a =>
    cases h
    simp only [State.storePayload, Memory.store_store_same]

theorem exec_busWr_again {size : AccessSize} {addr : Addr} {w : Word}
    (hne : size ≠ .word ∨ addr ≠ 0x00000#20) (h : exec (.busWr size addr w) s = .next t) :
    exec (.busWr size addr w) t = .next t := by
  have hplace : place size addr ≠ some (.register .cmd) := fun hp => by
    obtain ⟨hsize, haddr⟩ := place_eq_register.mp hp
    exact hne.elim (· hsize) (· haddr)
  by_cases ht : t.faultCause = .none
  · rw [exec_busWr] at h
    rcases transact_cases h with ⟨hs, rfl⟩ | ⟨_, hbody⟩ | ⟨_, e, he, rfl⟩
    · exact absurd ht hs
    · rw [writeBody, if_neg hplace] at hbody
      refine exec_busWr_of_ok ht ?_
      rw [writeBody, if_neg hplace, busWriteBody_again hbody]
    · exact absurd ht (faultsWith_cause (.inr (.inr ⟨_, _, _, rfl, he⟩)))
  · exact execBusWr_of_faulted ht size addr w

end Sys2Proof.Machine

namespace Sys2Proof.Claims

open Sys2Proof.Machine

/-- Settles O38: each range is one buffer's, and its byte at the address decides. -/
theorem bufferByteReads : Obligations.BufferByteReads := by
  refine fun s addr hs => ⟨fun hlo hhi => ?frame, fun hlo hhi => ?payload⟩
  case frame =>
    have hp := place_frame_of_range hlo hhi
    rw [← State.byteAt_of_frame hp]
    exact ⟨fun b => exec_busRd_of_byte_valid hs, exec_busRd_of_byte_invalid hs (by simp [hp])⟩
  case payload =>
    have hp := place_payload_of_range hlo hhi
    rw [← State.byteAt_of_payload hp]
    exact ⟨fun b => exec_busRd_of_byte_valid hs, exec_busRd_of_byte_invalid hs (by simp [hp])⟩

/-- Settles O41: the write changes the byte at its address alone, and a read answers the byte at its
address. -/
theorem bufferReadAfterWrite : Obligations.BufferReadAfterWrite := by
  intro s addr b hs hrange
  obtain ⟨t, hnext, ht, hsame, hother⟩ := exec_busWr_byte hs hrange b
  refine ⟨t, hnext, exec_busRd_of_byte_valid ht hsame, fun other v hne hread => ?_⟩
  obtain ⟨c, hc, rfl⟩ := byteAt_of_exec_busRd hs hread
  exact exec_busRd_of_byte_valid ht ((hother other hne).trans hc)

/-- Settles O40: a read's operands and a write's outcome are as before when it is repeated. -/
theorem readsAndPlainWritesRepeat : Obligations.ReadsAndPlainWritesRepeat := by
  refine ⟨fun size addr s t u hst htu => ?read, fun _ _ _ _ _ hne h => exec_busWr_again hne h⟩
  case read =>
    rcases execBusRd_cases hst with ⟨v, rfl⟩ | ⟨hs, e, he, rfl⟩
    · exact .inl ⟨v, rfl, Host.Outcome.next.inj (htu.symm.trans (exec_busRd_repeats hst))⟩
    · exact .inr ⟨hs, faultsWith_cause (.inl ⟨_, _, rfl, he⟩), rfl⟩

/-- Settles O16: the CRC function evaluated on each sequence. -/
theorem crcKnownValues : Obligations.CrcKnownValues := by
  refine ⟨?_, ?_, ?_, ?_, ?_, ?_, ?_, ?_, ?_, ?_, ?_⟩ <;> decide +kernel

end Sys2Proof.Claims
end

section
/-! PROOFS. What a cursor command reads back and how offsets add up, and the two laws of 41_cursor.md
R93. -/

namespace Sys2Proof.Machine

open Sys2Proof.Claims

variable {s t : State}

/-! ### LeRead of what LeWrite stored -/

/-- LeRead of the `k` bytes LeWrite stored is the low `k` bytes of the value (41_cursor.md R87,
R88). -/
theorem leValue_leBytes (k : Nat) (v : Word) :
    leValue (leBytes k v) = BitVec.ofNat 32 (v.toNat % 2 ^ (8 * k)) := by
  apply BitVec.eq_of_getLsbD_eq
  intro i hi
  rw [leValue_getLsbD _ _ hi, BitVec.getLsbD_ofNat, Nat.testBit_mod_two_pow, BitVec.testBit_toNat]
  by_cases h : i < 8 * k
  · rw [leBytes_getElem? (by omega), Option.getD_some, BitVec.getLsbD_extractLsb']
    have hmod : i % 8 < 8 := by omega
    simp only [hi, h, hmod, decide_true, Bool.true_and, Nat.div_add_mod]
  · have hnone : (leBytes k v)[i / 8]? = none := by
      rw [List.getElem?_eq_none_iff, leBytes_length]
      omega
    simp [hnone, h]

/-- The bytes of LeWrite, read back by LeRead's loop. -/
theorem leWord_extract (k : Nat) (v : Word) :
    leWord (fun j => v.extractLsb' (8 * j) 8) k = BitVec.ofNat 32 (v.toNat % 2 ^ (8 * k)) := by
  rw [← leValue_leBytes, leBytes_eq_leList, leList, leValue_map_range]

theorem leList_getElem? {n k : Nat} (h : k < n) (v : Word) :
    (leList n v)[k]? = some (v.extractLsb' (8 * k) 8) := by
  rw [← leBytes_eq_leList, leBytes_getElem? h]

@[simp] theorem leList_length (n : Nat) (v : Word) : (leList n v).length = n := by
  rw [← leBytes_eq_leList, leBytes_length]

/-! ### OFF -/

/-- `wr OFF, o` for an `o` that OFF can hold (20_memory.md R56). -/
theorem exec_busWr_off (hs : s.faultCause = .none) (o : Extent) :
    exec (.busWr .word 0x00020#20 (o.setWidth 32)) s = .next { s with off := o } := by
  have hfield : inField 17 .off (o.setWidth 32) = .ok o := by
    refine inField_eq_ok.mpr ⟨?_, by simp⟩
    rw [BitVec.toNat_setWidth_of_le (by omega)]
    exact o.isLt
  refine exec_busWr_of_ok hs ((writeBody_regAddr (r := .off) (by decide) _).trans ?_)
  rw [regWriteBody, hfield]
  rfl

/-- A cursor command that leaves the block not faulted advanced OFF by its count (41_cursor.md R89). -/
theorem off_of_exec_cursor {i : Instr} (hi : (cursorCount i).isSome = true)
    (h : exec i s = .next t) (ht : t.faultCause = .none) :
    t.off.toNat = s.off.toNat + (cursorCount i).getD 0 := by
  cases i with
  | curRead n =>
    obtain ⟨_, l, _, hbound, bs, _, rfl⟩ :=
      curReadBody_eq_ok.mp (commandBody_of_exec_clear (i := .curRead n) rfl h ht)
    exact advanced_toNat hbound
  | curWrite n =>
    obtain ⟨_, v, l, _, _, hbound, rfl⟩ :=
      curWriteBody_eq_ok.mp (commandBody_of_exec_clear (i := .curWrite n) rfl h ht)
    exact advanced_toNat hbound
  | _ => cases hi

/-! ### Instructions one after another -/

theorem execAll_cons_eq_next {i : Instr} {is : List Instr} (h : execAll (i :: is) s = .next t) :
    ∃ u, exec i s = .next u ∧ execAll is u = .next t := by
  obtain ⟨u, hu⟩ := exec_answers_next i s
  exact ⟨u, hu, (execAll_cons_of_next hu is).symm.trans h⟩

/-- A run of instructions never leaves the faulted state (60_exceptions.md R116). -/
theorem faultCause_of_execAll_clear {is : List Instr} (h : execAll is s = .next t)
    (ht : t.faultCause = .none) : s.faultCause = .none := by
  induction is generalizing s with
  | nil => exact Host.Outcome.next.inj h ▸ ht
  | cons i is ih =>
    obtain ⟨u, hu, hrest⟩ := execAll_cons_eq_next h
    by_contra hs
    obtain ⟨hcause, _⟩ := exec_keeps_fault_record hs hu
    exact hs (hcause ▸ ih hrest)

end Sys2Proof.Machine

namespace Sys2Proof.Claims

open Sys2Proof.Machine

/-- Settles O23: CUR_WRITE stores LeWrite's bytes at o, and CUR_READ from o loads the same bytes. -/
theorem cursorReadsBackWhatItWrote : Obligations.CursorReadsBackWhatItWrote := by
  intro s n v l hs hlo hhi hd hl hb
  have hwrite := exec_curWrite_of_in_bounds hs ⟨hlo, hhi⟩ hd hl hb
  have hseek : exec (.busWr .word 0x00020#20 (s.off.setWidth 32))
      { s.storeFrame s.off.toNat (leList n.toNat v) with off := advanced s.off n.toNat } =
      .next (s.storeFrame s.off.toNat (leList n.toNat v)) :=
    exec_busWr_off (s := { s.storeFrame s.off.toNat (leList n.toNat v) with
      off := advanced s.off n.toNat }) hs s.off
  have hstored : ∀ j, j < n.toNat →
      (s.storeFrame s.off.toNat (leList n.toNat v)).fbuf.read (s.off.toNat + j) =
        some (v.extractLsb' (8 * j) 8) := by
    intro j hj
    obtain ⟨hbytes, _⟩ := Memory.storedAt_store s.fbuf s.off.toNat (leList n.toNat v)
    exact (hbytes j (by rwa [leList_length])).trans (leList_getElem? hj v)
  have hread := exec_curRead_of_valid (s := s.storeFrame s.off.toNat (leList n.toNat v)) hs
    ⟨hlo, hhi⟩ hl hb hstored
  rw [leWord_extract] at hread
  have hrun := (execAll_cons_of_next hwrite _).trans
    ((execAll_cons_of_next hseek _).trans (execAll_cons_of_next hread []))
  exact ⟨_, hrun, hs, advanced_toNat hb, rfl⟩

/-- Settles O24: by induction on the list, each command adding its count to OFF. -/
theorem cursorOffsetsAddUp : Obligations.CursorOffsetsAddUp := by
  intro is
  induction is with
  | nil =>
    intro s t _ _ h _
    cases h
    rfl
  | cons i is ih =>
    intro s t hcursor _ h ht
    obtain ⟨u, hu, hrest⟩ := execAll_cons_eq_next h
    have hclear := faultCause_of_execAll_clear hrest ht
    have hi := hcursor i List.mem_cons_self
    obtain ⟨n, hn⟩ := Option.isSome_iff_exists.mp hi
    calc t.off.toNat
      _ = u.off.toNat + (is.filterMap cursorCount).sum :=
        ih u t (fun j hj => hcursor j (List.mem_cons_of_mem i hj)) hclear hrest ht
      _ = s.off.toNat + n + (is.filterMap cursorCount).sum := by
        rw [off_of_exec_cursor hi hu hclear, hn, Option.getD_some]
      _ = s.off.toNat + ((i :: is).filterMap cursorCount).sum := by
        rw [List.filterMap_cons_some hn, List.sum_cons, Nat.add_assoc]

end Sys2Proof.Claims
end

section
/-! PROOFS. DECODE as a function of the frame alone, a changed byte of a well-formed frame, and the
statements about them (42_codec.md R102, R107). -/

namespace Sys2Proof.Machine

open Sys2Proof.Claims

variable {s s' t t' : State}

/-! ### DECODE of two states -/

/-- Two bodies of DECODE, one from each state, that fault alike, fail alike or deliver alike. -/
inductive DecodesAlike (s s' : State) : Except Raised State → Except Raised State → Prop
  | error (e : Raised) : DecodesAlike s s' (.error e) (.error e)
  | failing (k : DecodeResult) (hok : k ≠ .ok) :
    DecodesAlike s s' (.ok (s.failing k)) (.ok (s'.failing k))
  | delivering (id : Half) (cnt : Byte) (n : Half) (p : List Byte) (hp : p.length = n.toNat) :
    DecodesAlike s s' (.ok (s.delivering id cnt n p)) (.ok (s'.delivering id cnt n p))

/-- After a read that answers the same in both states, the rest of the body decides. -/
theorem DecodesAlike.bind {α : Type} {x : Except Raised α} {f f' : α → Except Raised State}
    (h : ∀ a, x = .ok a → DecodesAlike s s' (f a) (f' a)) :
    DecodesAlike s s' (x >>= f) (x >>= f') := by
  cases x with
  | ok a => exact h a rfl
  | error e => exact .error e

theorem DecodesAlike.ite {c : Prop} [Decidable c] {x x' y y' : Except Raised State}
    (hpos : c → DecodesAlike s s' x x') (hneg : ¬ c → DecodesAlike s s' y y') :
    DecodesAlike s s' (if c then x else y) (if c then x' else y') := by
  split
  · exact hpos ‹_›
  · exact hneg ‹_›

theorem State.loadFrame_congr {a n hi : Nat} (hread : ∀ x, x < hi → s.fbuf.read x = s'.fbuf.read x)
    (h : a + n ≤ hi) : s.loadFrame a n = s'.loadFrame a n := by
  rw [State.loadFrame, State.loadFrame, Memory.load_congr fun x _ hx => hread x (by omega)]

theorem State.leReadFrame_congr {a n hi : Nat}
    (hread : ∀ x, x < hi → s.fbuf.read x = s'.fbuf.read x) (h : a + n ≤ hi) :
    s.leReadFrame a n = s'.leReadFrame a n := by
  rw [State.leReadFrame, State.leReadFrame, State.loadFrame_congr hread h]

/-- Steps 4 to 7 of DECODE read the `dl + 7` bytes of the frame (42_codec.md R98). -/
theorem decodeChecked_alike {id cnt dl : Word} (hdl : dl.toNat < 2 ^ 16)
    (hread : ∀ x, x < dl.toNat + 7 → s.fbuf.read x = s'.fbuf.read x) :
    DecodesAlike s s' (decodeChecked s id cnt dl) (decodeChecked s' id cnt dl) := by
  unfold decodeChecked
  simp only [Config.hdrBytes, Config.crcBytes]
  rw [State.loadFrame_congr hread (by omega), State.leReadFrame_congr hread (by omega)]
  refine .bind fun covered hcovered => .bind fun v _ =>
    .ite (fun _ => .failing _ (by decide)) fun _ => .delivering _ _ _ _ ?_
  obtain ⟨hlen, _⟩ := State.loadFrame_eq_ok.mp hcovered
  rw [List.length_drop, hlen, BitVec.toNat_setWidth, Nat.mod_eq_of_lt hdl]
  omega

/-- Steps 2 and 3 of DECODE read the header (42_codec.md R98). -/
theorem decodeHeader_alike {l : Extent} (h7 : 7 ≤ l.toNat)
    (hread : ∀ x, x < min l.toNat 65542 → s.fbuf.read x = s'.fbuf.read x) :
    DecodesAlike s s' (decodeHeader s l) (decodeHeader s' l) := by
  unfold decodeHeader
  rw [State.leReadFrame_congr hread (a := 0) (n := 2) (by omega),
    State.leReadFrame_congr hread (a := 2) (n := 1) (by omega),
    State.leReadFrame_congr hread (a := 3) (n := 2) (by omega)]
  refine .bind fun id _ => .bind fun cnt _ => .bind fun dl hdl =>
    .ite (fun _ => .failing _ (by decide)) fun hlen => ?_
  have hdl := State.leReadFrame_two_lt hdl
  have hlen : dl.toNat = l.toNat - 7 := not_not.mp hlen
  exact decodeChecked_alike hdl fun x hx => hread x (by omega)

/-- DECODE reads FLEN and FBUF below min(FLEN, 65542) (42_codec.md R102). -/
theorem decodeBody_alike (hflen : s.flen = s'.flen)
    (hread : ∀ l, s.flen = some l → ∀ x, x < min l.toNat 65542 → s.fbuf.read x = s'.fbuf.read x) :
    DecodesAlike s s' (decodeBody s) (decodeBody s') := by
  unfold decodeBody
  rw [← hflen]
  refine .bind fun l hl => .ite (fun _ => .failing _ (by decide)) fun h7 => ?_
  exact decodeHeader_alike (Nat.le_of_not_lt h7) (hread l (validated_eq_ok.mp hl))

/-! ### A changed byte of a well-formed frame -/

/-- Bytes followed by their CRC are no longer so with one byte changed: CrcOver tells the covered
bytes apart, and only two bytes stand for the CRC (42_codec.md R107). -/
theorem crc_ne_of_changed_byte {covered covered' : List Byte} {x y x' y' b : Byte} {j : Nat}
    (hcrc : (crcValue covered).toNat = x.toNat + 256 * y.toNat)
    (hj : j < (covered ++ [x, y]).length) (hne : (covered ++ [x, y])[j]? ≠ some b)
    (hset : (covered ++ [x, y]).set j b = covered' ++ [x', y']) :
    (crcValue covered').toNat ≠ x'.toNat + 256 * y'.toNat := by
  intro hcrc'
  by_cases hlow : j < covered.length
  · rw [List.set_append_left j b hlow] at hset
    obtain ⟨rfl, hxy⟩ := List.append_inj' hset rfl
    cases hxy
    have hover : crcOver (covered.set j b) = crcOver covered :=
      crcFinalize_inj.mp (BitVec.eq_of_toNat_eq (hcrc'.trans hcrc.symm))
    have hb : b ≠ covered[j] := by
      rintro rfl
      exact hne (by rw [List.getElem?_append_left hlow, List.getElem?_eq_getElem hlow])
    exact crcOver_set_ne hlow hb hover
  · have hset' := hset
    rw [List.set_append_right j b (Nat.le_of_not_lt hlow)] at hset'
    obtain ⟨rfl, _⟩ := List.append_inj' hset' (by simp)
    have hx : x = x' := BitVec.eq_of_toNat_eq (by omega)
    have hy : y = y' := BitVec.eq_of_toNat_eq (by omega)
    rw [← hx, ← hy] at hset
    exact hne (by rw [← hset, List.getElem?_set_self hj])

/-- A changed byte of the length field leaves a length field that is not the payload's length. -/
theorem exec_decode_of_changed_length_byte {id : Half} {cnt : Byte} {p : List Byte} {j : Nat}
    {b : Byte} (hs : s.faultCause = .none) (hp : p.length ≤ 65535) (hj : j = 3 ∨ j = 4)
    (hne : (frameOf id cnt p)[j]? ≠ some b) (hl : s.flen = some (BitVec.ofNat 17 (p.length + 7)))
    (hb : bytesAt s.fbuf 0 ((frameOf id cnt p).set j b)) :
    exec .decode s = .next { s with result := .lenMismatch } := by
  rcases hj with rfl | rfl
  · exact changedLengthFieldIsALengthMismatch s id cnt p b _ hs hp (.inl hne) hl hb
  · exact changedLengthFieldIsALengthMismatch s id cnt p _ b hs hp (.inr hne) hl hb

/-- A changed byte outside the length field leaves a frame of the same length whose CRC is wrong. -/
theorem exec_decode_of_changed_other_byte {id : Half} {cnt : Byte} {p : List Byte} {j : Nat}
    {b : Byte} (hs : s.faultCause = .none) (hp : p.length ≤ 65535) (hj : j < p.length + 7)
    (hj34 : ¬ (j = 3 ∨ j = 4)) (hne : (frameOf id cnt p)[j]? ≠ some b)
    (hl : s.flen = some (BitVec.ofNat 17 (p.length + 7)))
    (hb : bytesAt s.fbuf 0 ((frameOf id cnt p).set j b)) :
    exec .decode s = .next { s with result := .crcMismatch } := by
  have hflen := flenField_toNat (n := p.length + 7) (by omega)
  have hlen : ((frameOf id cnt p).set j b).length = 7 + p.length := by
    simp [frameOf]
    omega
  obtain ⟨a, b', c, d, e, q, x', y', hset, hq⟩ := exists_frame_parts hlen
  have hd : d = (BitVec.ofNat 16 p.length).extractLsb' 0 8 := by
    have h3 := congrArg (·[3]?) hset
    simpa [List.getElem?_set, frameOf, show j ≠ 3 by omega, eq_comm] using h3
  have he : e = (BitVec.ofNat 16 p.length).extractLsb' 8 8 := by
    have h4 := congrArg (·[4]?) hset
    simpa [List.getElem?_set, frameOf, show j ≠ 4 by omega, eq_comm] using h4
  have hdeclared : d.toNat + 256 * e.toNat = q.length := by rw [hd, he, lengthField_bytes hp, hq]
  rw [hset] at hb
  rw [exec_decode_of_frame hs hl (by omega) hdeclared hb, if_pos]
  · rfl
  obtain ⟨x, y, hframe, hcrc⟩ := frameOf_parts id cnt p
  rw [hframe] at hset hne
  exact crc_ne_of_changed_byte hcrc (by simp; omega) hne hset

end Sys2Proof.Machine

namespace Sys2Proof.Claims

open Sys2Proof.Machine

/-- Settles O30: in lockstep, the two DECODEs make the same reads and take the same branches. -/
theorem decodeDependsOnlyOnTheFrame : Obligations.DecodeDependsOnlyOnTheFrame := by
  intro s s' t t' hs hs' hflen hread h h'
  rw [exec_command rfl, transact_of_clear hs] at h
  rw [exec_command rfl, transact_of_clear hs'] at h'
  cases h
  cases h'
  have alike := decodeBody_alike hflen hread
  have hcause : ∀ e, decodeBody s = .error e → e.cause ≠ .none :=
    fun e he => faultsWith_cause (i := .decode) (.inr (.inl ⟨rfl, he⟩))
  simp only [commandBody]
  generalize decodeBody s = x, decodeBody s' = x' at alike hcause
  cases alike with
  | error e =>
    have he := hcause e rfl
    simp [State.raise_of_clear, hs, hs', he]
  | failing k hok => simp [hs, hs', hok]
  | delivering id cnt n p hp =>
    have hread : ∀ x, x < n.toNat → (s.pbuf.store 0 p).read x = (s'.pbuf.store 0 p).read x :=
      fun x hx => by
        rw [Memory.read_store_inside (Nat.zero_le x) (by omega),
          Memory.read_store_inside (Nat.zero_le x) (by omega)]
    simpa [hs, hs'] using hread

/-- Settles O33: a changed length byte gives another length, any other changed byte a wrong CRC. -/
theorem everyChangedByteIsDetected : Obligations.EveryChangedByteIsDetected := by
  intro s id cnt p j b hs hp hj hne hl hb
  split
  next h34 => exact exec_decode_of_changed_length_byte hs hp h34 hne hl hb
  next h34 => exact exec_decode_of_changed_other_byte hs hp hj h34 hne hl hb

end Sys2Proof.Claims
end
